-- ==== Sys2Proof/Word.lean ====
section
/-! DEFINITION. The two bit-vector types of the hardware: bytes and 16-bit words (00_scope.md rule R4). -/

namespace Sys2Proof

/-- A byte: 8 bits, unsigned (R4, R50). -/
abbrev Byte := BitVec 8

/-- The contents of a register or an address value: 16 bits, unsigned (R4). -/
abbrev Word := BitVec 16

end Sys2Proof
end

