-- ==== Sys2Proof/Config.lean ====
section
/-! DEFINITION. What an implementation fixes: the memory size, the one open parameter of the hardware
(00_scope.md rule R4, 92_eei_decisions.md D2). -/

namespace Sys2Proof

/-- The configuration of one core instance: `MEM_SIZE`, "fixed for the life of one core instance, legal
range 1 to 65535" (R4). The range is carried with the number, so an illegal size cannot be written down. -/
structure Config where
  /-- `MEM_SIZE`, the number of bytes of memory. -/
  memSize : Nat
  /-- R4: at least one byte. -/
  memSize_pos : 1 ≤ memSize := by decide
  /-- R4: the reset value of the 16-bit `sp` is `MEM_SIZE` (R27). -/
  memSize_le : memSize ≤ 65535 := by decide
deriving DecidableEq, Repr

/-- The default of R4, `MEM_SIZE` = 256. DESIGN CHOICE (log entry 1): the size of the core that
`State.reset` is; every definition and statement takes any legal size. -/
def Config.default : Config := { memSize := 256 }

end Sys2Proof
end

