-- ==== Sys2Proof/Syntax.lean ====
section
/-! DEFINITION. The decoded instruction (30_encoding.md rule R86): one constructor per row of
spec/opcode_table.json, each carrying the four operand fields of the record, used or not. And the seven
fault kinds (60_exceptions.md rule R174), which the decoder and the machine share. -/

namespace Sys2Proof

/-- The four addressing-mode codes (R85). -/
inductive Mode where
  | immediate
  | register
  | indirect
  | memory
deriving DecidableEq, Repr

/-- A data byte is present if and only if the mode is 0 or 3 (R83, R85). -/
def Mode.hasData : Mode → Bool
  | .immediate => true
  | .register => false
  | .indirect => false
  | .memory => true

/-- The index of a cell of the general register file, `x[0]` to `x[7]` (R21). An instruction may name
0 to 6 only (R22); that is a check of `Operands.wf`. -/
abbrev RegIdx := Fin 8

/-- The operand fields of a decoded instruction (R86): all of them are kept, also those the instruction
ignores (R93), so that re-encoding gives back the bytes (R99). -/
structure Operands where
  mode : Mode
  reg1 : RegIdx
  reg2 : RegIdx
  /-- The data byte, or `none`: the source's `data = None` (R86). -/
  data : Option Byte
deriving DecidableEq, Repr

/-- The decoded instruction (R86), one constructor per operation of the opcode table (R90). -/
inductive Instr where
  -- data movement, 40_data_movement.md
  | load (o : Operands)
  | store (o : Operands)
  | mov (o : Operands)
  | swap (o : Operands)
  -- arithmetic, 41_arithmetic.md
  | add (o : Operands)
  | sub (o : Operands)
  | mul (o : Operands)
  | div (o : Operands)
  | inc (o : Operands)
  | dec (o : Operands)
  -- logic and shifts, 42_logic.md
  | and (o : Operands)
  | or (o : Operands)
  | xor (o : Operands)
  | not (o : Operands)
  | shl (o : Operands)
  | shr (o : Operands)
  -- control flow, 43_control_flow.md
  | jmp (o : Operands)
  | jz (o : Operands)
  | jnz (o : Operands)
  | jc (o : Operands)
  | call (o : Operands)
  | ret (o : Operands)
  -- stack, 44_stack.md
  | push (o : Operands)
  | pop (o : Operands)
  -- system, 45_system.md
  | nop (o : Operands)
  | halt (o : Operands)
deriving DecidableEq, Repr

/-- The operand fields of an instruction. -/
def Instr.operands : Instr → Operands
  | .load o => o
  | .store o => o
  | .mov o => o
  | .swap o => o
  | .add o => o
  | .sub o => o
  | .mul o => o
  | .div o => o
  | .inc o => o
  | .dec o => o
  | .and o => o
  | .or o => o
  | .xor o => o
  | .not o => o
  | .shl o => o
  | .shr o => o
  | .jmp o => o
  | .jz o => o
  | .jnz o => o
  | .jc o => o
  | .call o => o
  | .ret o => o
  | .push o => o
  | .pop o => o
  | .nop o => o
  | .halt o => o

/-- The seven fault kinds, a closed enumeration (R174, R182): a fault is its name and nothing else. -/
inductive FaultKind where
  /-- R175, decode step 1: `pc >= MEM_SIZE` at the start of a cycle. -/
  | programCounterOutOfBounds
  /-- R176, decode step 3: the operand byte lies outside memory. -/
  | missingOperandByte
  /-- R177, decode step 5: `reg1` or `reg2` is 7. -/
  | invalidRegisterNumber
  /-- R178, decode step 6: the data byte lies outside memory. -/
  | missingDataByte
  /-- R179, decode step 7: the opcode byte is not one of the 26. -/
  | invalidOpcode
  /-- R180, execute: an access at an address `>= MEM_SIZE`. -/
  | memoryFault
  /-- R181, execute: DIV with `data == 0`. -/
  | divideByZero
deriving DecidableEq, Repr

end Sys2Proof
end

