-- ==== Sys2Proof/WellFormed.lean ====
section
/-! DEFINITION. Which instruction terms are decoded records (30_encoding.md rule R86): `reg1` and `reg2`
in 0..6, and a data byte exactly when the mode is 0 or 3. -/

namespace Sys2Proof

/-- An instruction can name only register indices 0 to 6 (R22, R86). -/
def RegIdx.addressable (r : RegIdx) : Bool := decide (r.val < 7)

/-- The three conditions of R86 on the operand fields. -/
def Operands.wf (o : Operands) : Bool :=
  RegIdx.addressable o.reg1 && RegIdx.addressable o.reg2 && (o.data.isSome == o.mode.hasData)

/-- A well-formed instruction: one the decoder can give (R86). -/
def Instr.wf (i : Instr) : Bool := i.operands.wf

end Sys2Proof
end

