-- ==== Sys2Proof/Decode.lean ====
section
/-! DEFINITION. The decoder (30_encoding.md rules R80 to R92), total on any bytes and rejecting by fault
kind, and after it the encoder (R99). -/

namespace Sys2Proof

/-! ### The opcode map -/

/-- One row of the opcode map (R90): the value of byte 0 and the operation. -/
structure OpcodeRow where
  code : Byte
  instr : Operands → Instr

/-- 0x0_ data movement (R90). -/
def dataMovementRows : List OpcodeRow :=
  [⟨0x00, .load⟩, ⟨0x01, .store⟩, ⟨0x02, .mov⟩, ⟨0x03, .swap⟩]

/-- 0x1_ arithmetic (R90). -/
def arithmeticRows : List OpcodeRow :=
  [⟨0x10, .add⟩, ⟨0x11, .sub⟩, ⟨0x12, .mul⟩, ⟨0x13, .div⟩, ⟨0x14, .inc⟩, ⟨0x15, .dec⟩]

/-- 0x2_ logic (R90). -/
def logicRows : List OpcodeRow :=
  [⟨0x20, .and⟩, ⟨0x21, .or⟩, ⟨0x22, .xor⟩, ⟨0x23, .not⟩, ⟨0x24, .shl⟩, ⟨0x25, .shr⟩]

/-- 0x3_ control flow (R90). -/
def controlFlowRows : List OpcodeRow :=
  [⟨0x30, .jmp⟩, ⟨0x31, .jz⟩, ⟨0x32, .jnz⟩, ⟨0x33, .jc⟩, ⟨0x34, .call⟩, ⟨0x35, .ret⟩]

/-- 0x4_ stack and 0x7_ system (R90). -/
def stackAndSystemRows : List OpcodeRow :=
  [⟨0x40, .push⟩, ⟨0x41, .pop⟩, ⟨0x70, .nop⟩, ⟨0x7F, .halt⟩]

/-- The opcode table, complete: "Any other byte is invalid" (R90, R91). -/
def opcodeRows : List OpcodeRow :=
  dataMovementRows ++ arithmeticRows ++ logicRows ++ controlFlowRows ++ stackAndSystemRows

/-- The operation of an opcode byte, `none` for the 230 illegal values (R90, R91). -/
def decodeOpcode (b : Byte) : Option (Operands → Instr) :=
  (opcodeRows.find? fun row => row.code == b).map OpcodeRow.instr

/-! ### The operand byte -/

/-- The mode field `ob[7:6]` (R82). -/
def operandModeCode (ob : Byte) : BitVec 2 := ob.extractLsb' 6 2

/-- The field `reg1 = ob[5:3]` (R82). -/
def operandReg1 (ob : Byte) : RegIdx := (ob.extractLsb' 3 3).toFin

/-- The field `reg2 = ob[2:0]` (R82). -/
def operandReg2 (ob : Byte) : RegIdx := (ob.extractLsb' 0 3).toFin

/-- The mode of a mode code: "0=Immediate, 1=Register, 2=Indirect, 3=Memory" (R85). -/
def Mode.ofCode (c : BitVec 2) : Mode :=
  if c = 0 then .immediate else if c = 1 then .register else if c = 2 then .indirect else .memory

/-- The mode of an operand byte (R82, R85). -/
def operandMode (ob : Byte) : Mode := Mode.ofCode (operandModeCode ob)

/-- The operand fields of an operand byte, with the data byte or `none` (R82, R86). -/
def operandsOf (ob : Byte) (data : Option Byte) : Operands :=
  { mode := operandMode ob, reg1 := operandReg1 ob, reg2 := operandReg2 ob, data := data }

/-! ### The decoder -/

/-- What `Decode()` ends with: an instruction and its length, or a fault and how many bytes had been
consumed, which is how far `pc` has advanced (R87, R89). -/
inductive Decoded where
  | ok (i : Instr) (length : Nat)
  | fault (kind : FaultKind) (consumed : Nat)
deriving DecidableEq, Repr

/-- Step 7 of R87: resolve the opcode byte, last of all (R88 item 1), after `n` bytes. -/
def resolveOpcode (op : Byte) (o : Operands) (n : Nat) : Decoded :=
  match decodeOpcode op with
  | some instr => .ok (instr o) n
  | none => .fault .invalidOpcode n

/-- Steps 6 and 7 of R87, after the opcode and the operand byte: `rest` is what memory holds behind them. -/
def decodeData (op ob : Byte) (rest : List Byte) : Decoded :=
  if (operandMode ob).hasData then
    match rest with
    | [] => .fault .missingDataByte 2
    | d :: _ => resolveOpcode op (operandsOf ob (some d)) 3
  else
    resolveOpcode op (operandsOf ob none) 2

/-- `Decode()` (R87) on the bytes that memory holds from `pc` upward: a byte missing from the list is a
byte at or above `MEM_SIZE`. The checks stand in the order of R87's steps 1, 3, 5, 6, 7. -/
def decode : List Byte → Decoded
  | [] => .fault .programCounterOutOfBounds 0
  | [_] => .fault .missingOperandByte 1
  | op :: ob :: rest =>
    if RegIdx.addressable (operandReg1 ob) && RegIdx.addressable (operandReg2 ob) then
      decodeData op ob rest
    else
      .fault .invalidRegisterNumber 2

/-- The longest instruction, in bytes (R80). -/
def maxInstrLength : Nat := 3

/-- The low `maxInstrLength` bytes of a table word, its first byte the low one: bit 0 of the word is the
least significant bit of byte 0. Bits at or above `nbits` are taken as 0. -/
def tableWordBytes (nbits w : Nat) : List Byte :=
  let v := w % 2 ^ nbits
  [BitVec.ofNat 8 v, BitVec.ofNat 8 (v / 256), BitVec.ofNat 8 (v / 65536)]

/-- The instruction the decoder reads from a word numbered as spec/opcode_table.json numbers it. -/
def decodeTableWord (nbits w : Nat) : Option Instr :=
  match decode (tableWordBytes nbits w) with
  | .ok i _ => some i
  | .fault _ _ => none

/-! ### The encoder -/

/-- The opcode byte of an instruction (R90). -/
def opcodeOf : Instr → Byte
  | .load _ => 0x00
  | .store _ => 0x01
  | .mov _ => 0x02
  | .swap _ => 0x03
  | .add _ => 0x10
  | .sub _ => 0x11
  | .mul _ => 0x12
  | .div _ => 0x13
  | .inc _ => 0x14
  | .dec _ => 0x15
  | .and _ => 0x20
  | .or _ => 0x21
  | .xor _ => 0x22
  | .not _ => 0x23
  | .shl _ => 0x24
  | .shr _ => 0x25
  | .jmp _ => 0x30
  | .jz _ => 0x31
  | .jnz _ => 0x32
  | .jc _ => 0x33
  | .call _ => 0x34
  | .ret _ => 0x35
  | .push _ => 0x40
  | .pop _ => 0x41
  | .nop _ => 0x70
  | .halt _ => 0x7F

/-- The code of a mode (R85). -/
def Mode.code : Mode → Nat
  | .immediate => 0
  | .register => 1
  | .indirect => 2
  | .memory => 3

/-- The operand byte `mode * 64 + reg1 * 8 + reg2` (R82, R99). -/
def operandByte (o : Operands) : Byte :=
  BitVec.ofNat 8 (o.mode.code * 64 + o.reg1.val * 8 + o.reg2.val)

/-- The data byte of a form that has one (R83, R99). -/
def dataBytes (o : Operands) : List Byte :=
  if o.mode.hasData then o.data.toList else []

/-- `Encode` (R99): opcode byte, operand byte, and the data byte when the mode is 0 or 3. -/
def encode (i : Instr) : List Byte :=
  opcodeOf i :: operandByte i.operands :: dataBytes i.operands

end Sys2Proof
end

