-- ==== Sys2Proof/Machine/State.lean ====
section
/-! DEFINITION. The architectural state of one core (10_state.md rule R20), as plain data, its reset value
(R41, 70_reset_and_hazards.md rule R200), and the reasons a step can stop in the host's sense. -/

namespace Sys2Proof.Machine

/-- The flag register: five independent booleans, no packed word (R30). -/
structure Flags where
  zero : Bool
  negative : Bool
  carry : Bool
  overflow : Bool
  /-- The reserved interrupt-enable flag: nothing reads or writes it (R37). -/
  interrupt : Bool
deriving DecidableEq, Repr

/-- The run state (R38, R172). -/
inductive RunState where
  | running
  | halted
  | faulted (kind : FaultKind)
deriving DecidableEq, Repr

/-- Memory as the cells that differ from what an unlisted address reads as (Machine/Ops.lean,
`Memory.unlistedByte`), by rising address: `Memory.wf` is the canonical form. -/
abbrev Memory := List Host.Cell

/-- The complete state (R20), and the configuration of the core it belongs to (R4). -/
structure State where
  /-- `MEM_SIZE`: configuration, not state (R4, R20); no rule changes it (log entry 1). -/
  config : Config
  /-- The general register file `x[0]` to `x[7]` (R21). -/
  regs : Vector Word 8
  /-- The program counter (R24). -/
  pc : Word
  /-- The stack pointer (R27). -/
  sp : Word
  /-- The base pointer, reserved (R29). -/
  bp : Word
  /-- The flag register (R30). -/
  flags : Flags
  /-- The run state (R38). -/
  runState : RunState
  /-- The most recently executed instruction, for inspection only (R39). -/
  last : Option Instr
  /-- The bytes `mem[0]` to `mem[MEM_SIZE-1]` (R50). -/
  mem : Memory
deriving DecidableEq, Repr

/-- What would stop the model with no next state. There is nothing: the spec gives a next state to every
running state (93_implementation_defined.md: "`Step` is total on `Running` states"), its seven faults are
values of the run state (R172, R184), and a core in a terminal state stays as it is (R172, R173; log entries
4 and 5). Nobody raises a value of this type, which is safe: it has none. -/
inductive Fault where
deriving DecidableEq, Repr

/-- Refusals of the model. -/
inductive Refusal where
  /-- Raised by an arm of `exec` for an instruction without a meaning. No arm of this model raises it. Safe:
  it stops the machine where the hardware goes on. -/
  | notModelled (mnemonic : String)
deriving DecidableEq, Repr

/-- The state after reset of a core of a given size, with no byte of memory listed (R41, R200). The source
fixes `pc`, `sp` and the run state; zero registers and flags and `last = None` are the spec's own choices
D14 and D22 (log entries 2 and 24). -/
def State.initial (config : Config) : State :=
  { config := config
    regs := Vector.replicate 8 0
    pc := 0
    sp := BitVec.ofNat 16 config.memSize
    bp := 0
    flags := { zero := false, negative := false, carry := false, overflow := false, interrupt := false }
    runState := .running
    last := none
    mem := [] }

/-- The machine right after reset, for the default size (R41; log entries 1, 2 and 3). -/
def State.reset : State := State.initial Config.default

end Sys2Proof.Machine
end

