-- ==== Sys2Proof/Machine/Ops.lean ====
section
/-! DEFINITION. The named operations over memory and registers: the one place where a byte of memory or a
register is read or written, raising a fault (60_exceptions.md rule R184), the byte stack (44_stack.md rules
R160 to R162) and loading the memory image (70_reset_and_hazards.md rule R202). There is no return from a
fault (R186). -/

namespace Sys2Proof.Machine

/-! ### Memory as data -/

/-- What an address reads as that nothing has written and the host's image does not list. DESIGN CHOICE
(log entry 3): 0x00, the fill that the examples of the spec use (R202, C7). -/
def Memory.unlistedByte : Byte := 0x00

/-- The byte at an address. -/
def Memory.read : Memory → Nat → Byte
  | [], _ => Memory.unlistedByte
  | (b, v) :: rest, a => if b = a then v else Memory.read rest a

/-- A memory without the cell at `a`. -/
def Memory.erase (m : Memory) (a : Nat) : Memory := m.filter fun c => c.1 != a

/-- Put a cell in its place by rising address. -/
def Memory.insert : Memory → Nat → Byte → Memory
  | [], a, v => [(a, v)]
  | (b, w) :: rest, a, v =>
    if a < b then (a, v) :: (b, w) :: rest else (b, w) :: Memory.insert rest a v

/-- Write one byte and keep the canonical form: the value an unlisted address reads as is not listed. -/
def Memory.write (m : Memory) (a : Nat) (v : Byte) : Memory :=
  if v = Memory.unlistedByte then Memory.erase m a else Memory.insert (Memory.erase m a) a v

/-- The canonical form: addresses strictly rising, and no cell with the unlisted byte. -/
abbrev Memory.wf (m : Memory) : Prop :=
  m.Pairwise (fun c d => c.1 < d.1) ∧ ∀ c ∈ m, c.2 ≠ Memory.unlistedByte

/-- Store bytes at rising addresses. -/
def Memory.writeBytes : Memory → Nat → List Byte → Memory
  | m, _, [] => m
  | m, a, v :: rest => Memory.writeBytes (Memory.write m a v) (a + 1) rest

/-! ### Registers -/

/-- Read `x[i]` (R21, R23). -/
def State.getReg (s : State) (i : RegIdx) : Word := s.regs[i.val]

/-- Write `x[i]` (R21, R23): no cell is hardwired. -/
def State.setReg (s : State) (i : RegIdx) (v : Word) : State := { s with regs := s.regs.set i.val v i.isLt }

/-- Write `pc` (R25). -/
def State.setPc (s : State) (v : Word) : State := { s with pc := v }

/-- Write `sp` (R28). -/
def State.setSp (s : State) (v : Word) : State := { s with sp := v }

/-- Write the flag register. -/
def State.setFlags (s : State) (f : Flags) : State := { s with flags := f }

/-- Write the run state: HALT and `raise` do (R38). -/
def State.setRunState (s : State) (r : RunState) : State := { s with runState := r }

/-- Write the last-instruction register (R39). -/
def State.setLast (s : State) (i : Option Instr) : State := { s with last := i }

/-- Replace the memory. -/
def State.setMem (s : State) (m : Memory) : State := { s with mem := m }

/-! ### Memory access with its bounds check -/

/-- A 16-bit address names a cell only below `MEM_SIZE` (R50); it is never reduced modulo `MEM_SIZE` (R52). -/
def State.inMemory (s : State) (a : Word) : Bool := decide (a.toNat < s.config.memSize)

/-- `MemRead(addr, 1)` (R52): `none` is the `MemoryFault`. -/
def State.memRead (s : State) (a : Word) : Option Byte :=
  if s.inMemory a then some (Memory.read s.mem a.toNat) else none

/-- `MemWrite(addr, 1, v)` (R53): `none` is the `MemoryFault`. -/
def State.memWrite (s : State) (a : Word) (v : Byte) : Option State :=
  if s.inMemory a then some (s.setMem (Memory.write s.mem a.toNat v)) else none

/-! ### Taking a fault -/

/-- `raise K` (R184): the rest of the cycle is abandoned and `run_state <- Faulted(K)`. Nothing is saved and
control goes nowhere. What else the cycle keeps is what `s` holds (R185). -/
def State.raise (s : State) (k : FaultKind) : Host.Outcome State Fault Refusal :=
  .next (s.setRunState (.faulted k))

/-- End an instruction whose accesses were made from `s`: a failed access raises `MemoryFault` at `s`, so
that the faulting instruction commits none of its own writes (R180, R185). -/
def State.orMemoryFault (s : State) (r : Option State) : Host.Outcome State Fault Refusal :=
  match r with
  | some t => .next t
  | none => s.raise .memoryFault

/-! ### The byte stack -/

/-- Push one byte: subtract 1 from `sp`, then write at the new `sp` (R27, R160). The subtraction wraps
modulo 65536 and a wrapped address fails the bounds check (R28). -/
def State.pushByte (s : State) (v : Byte) : Option State :=
  let a := s.sp - 1
  (s.memWrite a v).map fun t => t.setSp a

/-- Pop one byte: read at `sp`, then add 1 (R27, R161). -/
def State.popByte (s : State) : Option (Byte × State) :=
  (s.memRead s.sp).map fun v => (v, s.setSp (s.sp + 1))

/-! ### Construction -/

/-- The memory of an image: byte `k` of the buffer becomes `mem[k]` (R202). -/
def Memory.ofImage (image : List Byte) : Memory := Memory.writeBytes [] 0 image

/-- construct(`MEM_SIZE`, image), the host's only way to make a core (R200, R202, R204). The buffer has
`MEM_SIZE` bytes; bytes beyond that name no cell, and cells a shorter buffer does not reach read as the
unlisted byte (log entry 3). -/
def State.construct (config : Config) (image : List Byte) : State :=
  (State.initial config).setMem (Memory.ofImage (image.take config.memSize))

/-- `State.withFetchWord`'s work: the bytes at `pc` and up, those of them that name a cell. -/
def State.placeAtPc (s : State) (bytes : List Byte) : State :=
  s.setMem (Memory.writeBytes s.mem s.pc.toNat (bytes.take (s.config.memSize - s.pc.toNat)))

end Sys2Proof.Machine
end

