-- ==== Sys2Proof/Machine/Operands.lean ====
section
/-! DEFINITION. The operand forms: the data byte, present or absent (30_encoding.md rules R94, R97, R98).
The mode has no other effect (R96) and `x[reg1]` is the register of every form (R95). -/

namespace Sys2Proof.Machine

/-- `zext_16(b)`: bits 15:8 zero (R94). Never sign-extended. -/
def zext16 (b : Byte) : Word := b.setWidth 16

/-- The operand of a data-requiring opcode (R97): without a data byte (modes 1 and 2) the instruction is a
no-operation, raises nothing and completes. -/
def State.withData (s : State) (o : Operands) (k : Byte → Host.Outcome State Fault Refusal) :
    Host.Outcome State Fault Refusal :=
  match o.data with
  | none => .next s
  | some d => k d

end Sys2Proof.Machine
end

