-- ==== Sys2Proof/Machine/Flags.lean ====
section
/-! DEFINITION. The flag computations (10_state.md rules R32 to R35): the value of each flag for a result,
and the three sets of flags that instructions write. -/

namespace Sys2Proof.Machine

/-- `zero(r) = (r == 0)` (R32). -/
def zeroOf (r : Word) : Bool := r == 0

/-- `negative(r) = (r > 0x7FFF)` (R33). -/
def negativeOf (r : Word) : Bool := decide (r.toNat > 0x7FFF)

/-- The carry/overflow value of the add-type instructions, `r < old` (R34). -/
def coAdd (old r : Word) : Bool := decide (r.toNat < old.toNat)

/-- The carry/overflow value of the sub-type instructions, `r > old` (R34). -/
def coSub (old r : Word) : Bool := decide (r.toNat > old.toNat)

/-- LOAD, MOV and POP write `zero` only (R35). -/
def Flags.withZero (f : Flags) (r : Word) : Flags := { f with zero := zeroOf r }

/-- The logic and shift instructions write `zero` and `negative` (R35, R140). -/
def Flags.withLogic (f : Flags) (r : Word) : Flags :=
  { f with zero := zeroOf r, negative := negativeOf r }

/-- The arithmetic instructions write four flags, carry and overflow with the same value (R34, R35, R130). -/
def Flags.withArith (f : Flags) (r : Word) (co : Bool) : Flags :=
  { f with zero := zeroOf r, negative := negativeOf r, carry := co, overflow := co }

/-- Write a loaded value to `x[a]` with its `zero` flag (R120, R122, R161). -/
def State.writeLoaded (s : State) (a : RegIdx) (r : Word) : State :=
  (s.setReg a r).setFlags (s.flags.withZero r)

/-- Write a logic result to `x[a]` with its two flags (R140). -/
def State.writeLogic (s : State) (a : RegIdx) (r : Word) : State :=
  (s.setReg a r).setFlags (s.flags.withLogic r)

/-- Write an add-type result to `x[a]` with its four flags (R130, R34). -/
def State.writeAddType (s : State) (a : RegIdx) (r : Word) : State :=
  (s.setReg a r).setFlags (s.flags.withArith r (coAdd (s.getReg a) r))

/-- Write a sub-type result to `x[a]` with its four flags (R130, R34). -/
def State.writeSubType (s : State) (a : RegIdx) (r : Word) : State :=
  (s.setReg a r).setFlags (s.flags.withArith r (coSub (s.getReg a) r))

end Sys2Proof.Machine
end

