-- ==== Sys2Proof/Machine/Arithmetic.lean ====
section
/-! DEFINITION. The meanings of ADD, SUB, MUL, DIV, INC and DEC (41_arithmetic.md): unsigned, modulo 65536
(rule R130), with the carry/overflow value of 10_state.md rule R34. -/

namespace Sys2Proof.Machine

/-- ADD (R131): `wrap16(old + zext_16(data))`. -/
def execAdd (o : Operands) (s : State) : Host.Outcome State Fault Refusal :=
  s.withData o fun d => .next (s.writeAddType o.reg1 (s.getReg o.reg1 + zext16 d))

/-- SUB (R132): `wrap16(old - zext_16(data))`. -/
def execSub (o : Operands) (s : State) : Host.Outcome State Fault Refusal :=
  s.withData o fun d => .next (s.writeSubType o.reg1 (s.getReg o.reg1 - zext16 d))

/-- MUL (R133): the low 16 bits of the product; carry and overflow are the source's heuristic. -/
def execMul (o : Operands) (s : State) : Host.Outcome State Fault Refusal :=
  s.withData o fun d => .next (s.writeSubType o.reg1 (s.getReg o.reg1 * zext16 d))

/-- DIV (R134): the unsigned quotient, and `DivideByZero` before any write when `data == 0` (R181). -/
def execDiv (o : Operands) (s : State) : Host.Outcome State Fault Refusal :=
  s.withData o fun d =>
    if d = 0 then s.raise .divideByZero
    else .next (s.writeSubType o.reg1 (s.getReg o.reg1 / zext16 d))

/-- INC (R135): add 1, whatever the data byte, in all four modes. -/
def execInc (o : Operands) (s : State) : Host.Outcome State Fault Refusal :=
  .next (s.writeAddType o.reg1 (s.getReg o.reg1 + 1))

/-- DEC (R136): subtract 1, whatever the data byte, in all four modes. -/
def execDec (o : Operands) (s : State) : Host.Outcome State Fault Refusal :=
  .next (s.writeSubType o.reg1 (s.getReg o.reg1 - 1))

end Sys2Proof.Machine
end

