-- ==== Sys2Proof/Machine/ControlFlow.lean ====
section
/-! DEFINITION. The meanings of JMP, JZ, JNZ, JC, CALL and RET (43_control_flow.md). A target is the absolute
address `zext_16(data)`, unchecked when it is written (rule R150). -/

namespace Sys2Proof.Machine

/-- Write `pc` with the target of the data byte (R150). -/
def State.jumpTo (s : State) (d : Byte) : State := s.setPc (zext16 d)

/-- JMP (R151). -/
def execJmp (o : Operands) (s : State) : Host.Outcome State Fault Refusal :=
  s.withData o fun d => .next (s.jumpTo d)

/-- JZ (R152): if `flag.zero`. -/
def execJz (o : Operands) (s : State) : Host.Outcome State Fault Refusal :=
  s.withData o fun d => .next (if s.flags.zero then s.jumpTo d else s)

/-- JNZ (R153): if not `flag.zero`. -/
def execJnz (o : Operands) (s : State) : Host.Outcome State Fault Refusal :=
  s.withData o fun d => .next (if s.flags.zero then s else s.jumpTo d)

/-- JC (R154): if `flag.carry`. -/
def execJc (o : Operands) (s : State) : Host.Outcome State Fault Refusal :=
  s.withData o fun d => .next (if s.flags.carry then s.jumpTo d else s)

/-- The low byte of a return address, `pc[7:0]` (R155). -/
def lowByte (v : Word) : Byte := v.extractLsb' 0 8

/-- The high byte of a return address, `pc[15:8]` (R155). -/
def highByte (v : Word) : Byte := v.extractLsb' 8 8

/-- `hi * 256 + lo`, "(high<<8)|low" (R156). -/
def wordOfBytes (hi lo : Byte) : Word := hi ++ lo

/-- CALL (R155): push the low and then the high byte of the return address, which `pc` holds on entry, and
jump. Both pushes succeed or nothing is written. -/
def execCall (o : Operands) (s : State) : Host.Outcome State Fault Refusal :=
  s.withData o fun d =>
    s.orMemoryFault
      (((s.pushByte (lowByte s.pc)).bind fun t => t.pushByte (highByte s.pc)).map fun t => t.jumpTo d)

/-- RET (R156): pop the high and then the low byte and write `pc`. Both reads succeed or nothing is written. -/
def execRet (_o : Operands) (s : State) : Host.Outcome State Fault Refusal :=
  s.orMemoryFault
    (s.popByte.bind fun (hi, t) => t.popByte.map fun (lo, u) => u.setPc (wordOfBytes hi lo))

end Sys2Proof.Machine
end

