-- ==== Sys2Proof/Machine/DataMovement.lean ====
section
/-! DEFINITION. The meanings of LOAD, STORE, MOV and SWAP (40_data_movement.md). On entry `pc` already holds
the address of the next sequential instruction (10_state.md rule R24). -/

namespace Sys2Proof.Machine

/-- LOAD (R120): the zero-extended immediate into `x[reg1]`; memory is not read in any mode. -/
def execLoad (o : Operands) (s : State) : Host.Outcome State Fault Refusal :=
  s.withData o fun d => .next (s.writeLoaded o.reg1 (zext16 d))

/-- STORE (R121): the immediate byte to the address that all 16 bits of `x[reg1]` hold. -/
def execStore (o : Operands) (s : State) : Host.Outcome State Fault Refusal :=
  s.withData o fun d => s.orMemoryFault (s.memWrite (s.getReg o.reg1) d)

/-- MOV (R122): as LOAD; not a register copy in any mode. -/
def execMov (o : Operands) (s : State) : Host.Outcome State Fault Refusal :=
  s.withData o fun d => .next (s.writeLoaded o.reg1 (zext16 d))

/-- SWAP (R123): exchange `x[reg1]` and `x[reg2]` with no flag effect, in all four modes. -/
def execSwap (o : Operands) (s : State) : Host.Outcome State Fault Refusal :=
  .next ((s.setReg o.reg1 (s.getReg o.reg2)).setReg o.reg2 (s.getReg o.reg1))

end Sys2Proof.Machine
end

