-- ==== Sys2Proof/Machine/Logic.lean ====
section
/-! DEFINITION. The meanings of AND, OR, XOR, NOT, SHL and SHR (42_logic.md): 16-bit results, `zero` and
`negative` written, carry and overflow left alone (rule R140). -/

namespace Sys2Proof.Machine

/-- `shl16(v, n) = (v * 2^n) mod 65536`, the count not reduced (R145). -/
def shl16 (v : Word) (n : Byte) : Word := v <<< n.toNat

/-- `shr16(v, n) = floor(v / 2^n)`: logical, the count not reduced (R145). -/
def shr16 (v : Word) (n : Byte) : Word := v >>> n.toNat

/-- AND (R141): with `zext_16(data)`, so the upper byte is cleared. -/
def execAnd (o : Operands) (s : State) : Host.Outcome State Fault Refusal :=
  s.withData o fun d => .next (s.writeLogic o.reg1 (s.getReg o.reg1 &&& zext16 d))

/-- OR (R142): with `zext_16(data)`. -/
def execOr (o : Operands) (s : State) : Host.Outcome State Fault Refusal :=
  s.withData o fun d => .next (s.writeLogic o.reg1 (s.getReg o.reg1 ||| zext16 d))

/-- XOR (R143): with `zext_16(data)`. -/
def execXor (o : Operands) (s : State) : Host.Outcome State Fault Refusal :=
  s.withData o fun d => .next (s.writeLogic o.reg1 (s.getReg o.reg1 ^^^ zext16 d))

/-- NOT (R144): all 16 bits inverted, in all four modes. -/
def execNot (o : Operands) (s : State) : Host.Outcome State Fault Refusal :=
  .next (s.writeLogic o.reg1 (~~~ s.getReg o.reg1))

/-- SHL (R146): shift left by the data byte. -/
def execShl (o : Operands) (s : State) : Host.Outcome State Fault Refusal :=
  s.withData o fun d => .next (s.writeLogic o.reg1 (shl16 (s.getReg o.reg1) d))

/-- SHR (R147): shift right by the data byte, zeros entering at bit 15. -/
def execShr (o : Operands) (s : State) : Host.Outcome State Fault Refusal :=
  s.withData o fun d => .next (s.writeLogic o.reg1 (shr16 (s.getReg o.reg1) d))

end Sys2Proof.Machine
end

