-- ==== Sys2Proof/Machine/Stack.lean ====
section
/-! DEFINITION. The meanings of PUSH and POP (44_stack.md). -/

namespace Sys2Proof.Machine

/-- PUSH (R160): push the immediate byte, never a register. -/
def execPush (o : Operands) (s : State) : Host.Outcome State Fault Refusal :=
  s.withData o fun d => s.orMemoryFault (s.pushByte d)

/-- POP (R161): one byte, zero-extended, into `x[reg1]`, with its `zero` flag, in all four modes. -/
def execPop (o : Operands) (s : State) : Host.Outcome State Fault Refusal :=
  s.orMemoryFault (s.popByte.map fun (v, t) => t.writeLoaded o.reg1 (zext16 v))

end Sys2Proof.Machine
end

