-- ==== Sys2Proof/Machine/System.lean ====
section
/-! DEFINITION. The meanings of NOP and HALT (45_system.md). -/

namespace Sys2Proof.Machine

/-- NOP (R165): nothing; `pc` has been advanced by the decoder. -/
def execNop (_o : Operands) (s : State) : Host.Outcome State Fault Refusal := .next s

/-- HALT (R166): `run_state <- Halted`. -/
def execHalt (_o : Operands) (s : State) : Host.Outcome State Fault Refusal :=
  .next (s.setRunState .halted)

end Sys2Proof.Machine
end

