-- ==== Sys2Proof/Machine/Dispatch.lean ====
section
/-! DEFINITION. `Execute(ins)`: one dispatch on the opcode to the instruction's rule (60_exceptions.md rule
R170). One arm per constructor of Instr. -/

namespace Sys2Proof.Machine

def exec (i : Instr) (s : State) : Host.Outcome State Fault Refusal :=
  match i with
  -- data movement, 40_data_movement.md
  | .load o => Sys2Proof.Machine.execLoad o s
  | .store o => Sys2Proof.Machine.execStore o s
  | .mov o => Sys2Proof.Machine.execMov o s
  | .swap o => Sys2Proof.Machine.execSwap o s
  -- arithmetic, 41_arithmetic.md
  | .add o => Sys2Proof.Machine.execAdd o s
  | .sub o => Sys2Proof.Machine.execSub o s
  | .mul o => Sys2Proof.Machine.execMul o s
  | .div o => Sys2Proof.Machine.execDiv o s
  | .inc o => Sys2Proof.Machine.execInc o s
  | .dec o => Sys2Proof.Machine.execDec o s
  -- logic and shifts, 42_logic.md
  | .and o => Sys2Proof.Machine.execAnd o s
  | .or o => Sys2Proof.Machine.execOr o s
  | .xor o => Sys2Proof.Machine.execXor o s
  | .not o => Sys2Proof.Machine.execNot o s
  | .shl o => Sys2Proof.Machine.execShl o s
  | .shr o => Sys2Proof.Machine.execShr o s
  -- control flow, 43_control_flow.md
  | .jmp o => Sys2Proof.Machine.execJmp o s
  | .jz o => Sys2Proof.Machine.execJz o s
  | .jnz o => Sys2Proof.Machine.execJnz o s
  | .jc o => Sys2Proof.Machine.execJc o s
  | .call o => Sys2Proof.Machine.execCall o s
  | .ret o => Sys2Proof.Machine.execRet o s
  -- stack, 44_stack.md
  | .push o => Sys2Proof.Machine.execPush o s
  | .pop o => Sys2Proof.Machine.execPop o s
  -- system, 45_system.md
  | .nop o => Sys2Proof.Machine.execNop o s
  | .halt o => Sys2Proof.Machine.execHalt o s

end Sys2Proof.Machine
end

