-- ==== Sys2Proof/Machine/Cycle.lean ====
section
/-! DEFINITION. One instruction cycle (60_exceptions.md rule R170): the bytes the decoder can read at `pc`,
its advance of `pc`, execution, and the update of `last`. `step` (Machine/Step.lean) is `cycle` and nothing
more. -/

namespace Sys2Proof.Machine

/-- Up to `n` bytes of memory from address `a` upward, ending where `MEM_SIZE` does: fetch does not wrap
(R26) and reads `mem` under its own checks, never through `MemRead` (R54). -/
def State.bytesFrom (s : State) (a : Nat) : Nat → List Byte
  | 0 => []
  | n + 1 => if a < s.config.memSize then Memory.read s.mem a :: s.bytesFrom (a + 1) n else []

/-- The bytes the decoder can read at `pc`: as many of the longest instruction's as lie in memory (R80, R87). -/
def State.fetchBytes (s : State) : List Byte := s.bytesFrom s.pc.toNat maxInstrLength

/-- `pc` after `n` bytes have been consumed: `wrap16(pc + 1)` each (R25, R87, R89). -/
def State.advancePc (s : State) (n : Nat) : State := s.setPc (s.pc + BitVec.ofNat 16 n)

/-- Whether the cycle has ended in a fault (R172). -/
def State.isFaulted (s : State) : Bool :=
  match s.runState with
  | .faulted _ => true
  | .running => false
  | .halted => false

/-- `last <- ins` at the end of a cycle that completes without a fault (R39, R170). -/
def State.retire (t : State) (i : Instr) : State := if t.isFaulted then t else t.setLast (some i)

/-- The end of a cycle whose instruction has been executed (R170). -/
def retireOutcome (i : Instr) (r : Host.Outcome State Fault Refusal) : Host.Outcome State Fault Refusal :=
  match r with
  | .next t => .next (t.retire i)
  | .fault f => .fault f
  | .refused f => .refused f

/-- What follows decoding (R170): execution with `pc` past the instruction (R24), or the decode fault with
`pc` advanced by the bytes consumed (R89, R185). -/
def State.afterDecode (s : State) (d : Decoded) : Host.Outcome State Fault Refusal :=
  match d with
  | .ok i n => retireOutcome i (exec i (s.advancePc n))
  | .fault k n => (s.advancePc n).raise k

/-- One cycle (R170). In a terminal state no cycle runs and the state stays as it is (R172, R173). DEDUCED
(log entry 4): that a step then answers the same state. -/
def cycle (s : State) : Host.Outcome State Fault Refusal :=
  match s.runState with
  | .running => s.afterDecode (decode s.fetchBytes)
  | .halted => .next s
  | .faulted _ => .next s

end Sys2Proof.Machine
end

