-- ==== Sys2Proof/Machine/Step.lean ====
section
/-! DEFINITION. The step function (60_exceptions.md rule R170), and the host's way to put one instruction
where the next step fetches. -/

namespace Sys2Proof.Machine

/-- One step of the core is one instruction cycle (R5, R170). -/
def step (s : State) : Host.Outcome State Fault Refusal := cycle s

/-- `s` with the table word `w` (bits at or above `nbits` zero) stored at `pc`, `pc + 1` and `pc + 2`, where
the next step fetches. A byte that would lie at or above `MEM_SIZE` is not stored. Nothing else changes (log
entry 26). -/
def State.withFetchWord (s : State) (nbits w : Nat) : State := s.placeAtPc (tableWordBytes nbits w)

end Sys2Proof.Machine
end

