-- ==== Sys2Proof/Machine/Run.lean ====
section
/-! DEFINITION. The run loop (60_exceptions.md rule R171), under fuel because it need not terminate (R192). -/

namespace Sys2Proof.Machine

/-- `while run_state == Running: Step()` (R171), for at most `n` cycles. -/
def runLoop : Nat → State → Host.Outcome State Fault Refusal
  | 0, s => .next s
  | n + 1, s =>
    match s.runState with
    | .halted => .next s
    | .faulted _ => .next s
    | .running =>
      match step s with
      | .next t => runLoop n t
      | .fault f => .fault f
      | .refused f => .refused f

end Sys2Proof.Machine
end

