-- ==== Sys2Proof/Safety.lean ====
section
/-! DEFINITION. What claims about the machine are stated in: how a run ends (70_reset_and_hazards.md rule
R206), the invariant that every step keeps, the frame of an instruction that writes one register, and the
lists of operations that the rules of 30_encoding.md speak of. -/

namespace Sys2Proof.Machine

/-! ### Runs -/

/-- A terminal state: `Halted` or `Faulted(K)` (R173). -/
def State.Ended (s : State) : Prop := s.runState ≠ .running

/-- The run has completed: the end state is `Halted`, and only that (R173, R206). -/
def State.Completed (s : State) : Prop := s.runState = .halted

/-- The run has failed with a fault of kind `k`, which it reports to its caller (R182, R206). -/
def State.Failed (s : State) (k : FaultKind) : Prop := s.runState = .faulted k

/-- A run from `s` is at `t` after some number of cycles of the run loop (R171). -/
def State.Reaches (s t : State) : Prop := ∃ n, runLoop n s = .next t

/-- The invariant: memory is canonical and lists only addresses below `MEM_SIZE` (R50), `sp` is at most
`MEM_SIZE` (R28), and the last executed instruction is a well-formed record (R39, R86). -/
structure State.Inv (s : State) : Prop where
  mem_wf : Memory.wf s.mem
  mem_bound : ∀ c ∈ s.mem, c.1 < s.config.memSize
  sp_le : s.sp.toNat ≤ s.config.memSize
  last_wf : ∀ i, s.last = some i → i.wf = true

/-! ### The frame of a register-only instruction -/

/-- `t` is `s` but for the general register `r`, which holds the number `v`, and the flag register, which is
`f`: every other register, `pc`, `sp`, `bp`, the run state, `last`, the configuration and every byte of
memory are as before. -/
def State.RegResult (s t : State) (r : RegIdx) (v : Nat) (f : Flags) : Prop :=
  (t.getReg r).toNat = v ∧
  (∀ j, j ≠ r → t.getReg j = s.getReg j) ∧
  (∀ a, Memory.read t.mem a = Memory.read s.mem a) ∧
  t = { s with regs := t.regs, flags := f }

/-- The two runs of `i` from `s` and from `s` with the flags `f` do not tell the flags apart: they differ in
the flag register only, and there each flag either has the same value in both or has been left alone. -/
def Instr.ReadsNoFlag (i : Instr) (s : State) (f : Flags) : Prop :=
  ∃ t u, exec i s = .next t ∧ exec i { s with flags := f } = .next u ∧
    u = { t with flags := u.flags } ∧
    (u.flags.zero = t.flags.zero ∨ (t.flags.zero = s.flags.zero ∧ u.flags.zero = f.zero)) ∧
    (u.flags.negative = t.flags.negative ∨ (t.flags.negative = s.flags.negative ∧ u.flags.negative = f.negative)) ∧
    (u.flags.carry = t.flags.carry ∨ (t.flags.carry = s.flags.carry ∧ u.flags.carry = f.carry)) ∧
    (u.flags.overflow = t.flags.overflow ∨ (t.flags.overflow = s.flags.overflow ∧ u.flags.overflow = f.overflow)) ∧
    (u.flags.interrupt = t.flags.interrupt ∨ (t.flags.interrupt = s.flags.interrupt ∧ u.flags.interrupt = f.interrupt))

/-! ### The operations the rules of 30_encoding.md name -/

/-- The 26 legal values of byte 0, written out from R90. -/
def legalOpcodeBytes : List Byte :=
  [0x00, 0x01, 0x02, 0x03, 0x10, 0x11, 0x12, 0x13, 0x14, 0x15, 0x20, 0x21, 0x22, 0x23, 0x24, 0x25,
   0x30, 0x31, 0x32, 0x33, 0x34, 0x35, 0x40, 0x41, 0x70, 0x7F]

/-- The eighteen data-requiring operations (R97). -/
def dataRequiring : List (Operands → Instr) :=
  [.load, .store, .mov, .add, .sub, .mul, .div, .and, .or, .xor, .shl, .shr, .jmp, .jz, .jnz, .jc, .call, .push]

/-- The eight operations that never read the data byte (R98). -/
def dataIgnoring : List (Operands → Instr) :=
  [.swap, .inc, .dec, .not, .ret, .pop, .nop, .halt]

/-- The nine operations that ignore `reg1` (R93). -/
def reg1Ignoring : List (Operands → Instr) :=
  [.jmp, .jz, .jnz, .jc, .call, .ret, .push, .nop, .halt]

/-- The six arithmetic operations (R130). -/
def arithmeticOps : List (Operands → Instr) := [.add, .sub, .mul, .div, .inc, .dec]

/-- The six logic and shift operations (R140). -/
def logicOps : List (Operands → Instr) := [.and, .or, .xor, .not, .shl, .shr]

end Sys2Proof.Machine
end

