-- ==== Sys2Proof/Certificates/Slice0/Obligations.lean ====
section
/-! DEFINITION. The statements for the provers. Each is about every state and every operand unless it says
otherwise, and `exec` runs with `pc` already past the instruction (10_state.md rule R24). "D<n>" is a
decision of spec/92_eei_decisions.md, "log <n>" an entry of notes/assumptions. -/

open Sys2Proof Sys2Proof.Machine

/-! ### Data movement (40_data_movement.md) -/

/-- R120, R122: LOAD and MOV write the zero-extended immediate and `zero`, nothing else. Without a data byte
they change nothing (the first line of both rules; R97, D7, log 8). -/
def Obligations.LoadAndMovWriteZeroExtendedByte : Prop :=
  ∀ mk ∈ [Instr.load, Instr.mov], ∀ (o : Operands) (s : State),
    (∀ d, o.data = some d →
      ∃ t, exec (mk o) s = .next t ∧
        s.RegResult t o.reg1 d.toNat { s.flags with zero := decide (d.toNat = 0) }) ∧
    (o.data = none → exec (mk o) s = .next s)

/-- R121: STORE writes the immediate byte at the address all 16 bits of `x[reg1]` hold, and nothing else;
at or above `MEM_SIZE` it raises `MemoryFault` and writes nothing; without a data byte it changes nothing. -/
def Obligations.StoreWritesByteAtRegisterAddress : Prop :=
  ∀ (o : Operands) (s : State),
    (∀ d, o.data = some d →
      ((s.getReg o.reg1).toNat < s.config.memSize →
        ∃ t, exec (.store o) s = .next t ∧
          Memory.read t.mem (s.getReg o.reg1).toNat = d ∧
          (∀ a, a ≠ (s.getReg o.reg1).toNat → Memory.read t.mem a = Memory.read s.mem a) ∧
          t = { s with mem := t.mem }) ∧
      (s.config.memSize ≤ (s.getReg o.reg1).toNat →
        exec (.store o) s = .next { s with runState := .faulted .memoryFault })) ∧
    (o.data = none → exec (.store o) s = .next s)

/-- R123: SWAP exchanges `x[reg1]` and `x[reg2]`, in every mode, with no flag effect and no other effect. -/
def Obligations.SwapExchangesTwoRegisters : Prop :=
  ∀ (o : Operands) (s : State),
    ∃ t, exec (.swap o) s = .next t ∧
      t.getReg o.reg1 = s.getReg o.reg2 ∧ t.getReg o.reg2 = s.getReg o.reg1 ∧
      (∀ j, j ≠ o.reg1 → j ≠ o.reg2 → t.getReg j = s.getReg j) ∧
      t = { s with regs := t.regs }

/-! ### Arithmetic (41_arithmetic.md) -/

/-- R131: ADD, with `r < old` in carry and overflow. -/
def Obligations.AddWrapsModulo65536 : Prop :=
  ∀ (o : Operands) (s : State),
    (∀ d, o.data = some d →
      let old := (s.getReg o.reg1).toNat
      let r := (old + d.toNat) % 65536
      ∃ t, exec (.add o) s = .next t ∧
        s.RegResult t o.reg1 r
          { s.flags with zero := decide (r = 0), negative := decide (r > 0x7FFF),
                         carry := decide (r < old), overflow := decide (r < old) }) ∧
    (o.data = none → exec (.add o) s = .next s)

/-- R132: SUB, with `r > old` in carry and overflow. -/
def Obligations.SubWrapsModulo65536 : Prop :=
  ∀ (o : Operands) (s : State),
    (∀ d, o.data = some d →
      let old := (s.getReg o.reg1).toNat
      let r := (old + 65536 - d.toNat) % 65536
      ∃ t, exec (.sub o) s = .next t ∧
        s.RegResult t o.reg1 r
          { s.flags with zero := decide (r = 0), negative := decide (r > 0x7FFF),
                         carry := decide (r > old), overflow := decide (r > old) }) ∧
    (o.data = none → exec (.sub o) s = .next s)

/-- MUL keeps the low 16 bits of the product, with `r > old` in carry and overflow (the spec's own choices
D16 and D18, logs 12 and 14). -/
def Obligations.MulKeepsLowHalf : Prop :=
  ∀ (o : Operands) (s : State),
    (∀ d, o.data = some d →
      let old := (s.getReg o.reg1).toNat
      let r := old * d.toNat % 65536
      ∃ t, exec (.mul o) s = .next t ∧
        s.RegResult t o.reg1 r
          { s.flags with zero := decide (r = 0), negative := decide (r > 0x7FFF),
                         carry := decide (r > old), overflow := decide (r > old) }) ∧
    (o.data = none → exec (.mul o) s = .next s)

/-- DIV writes the unsigned quotient and clears carry and overflow; by 0 it raises `DivideByZero` and writes
nothing else (the spec's own choices D10, D12 and D18, logs 7, 14 and 15). -/
def Obligations.DivWritesQuotientOrFaults : Prop :=
  ∀ (o : Operands) (s : State),
    (∀ d, o.data = some d →
      (d.toNat ≠ 0 →
        let r := (s.getReg o.reg1).toNat / d.toNat
        ∃ t, exec (.div o) s = .next t ∧
          s.RegResult t o.reg1 r
            { s.flags with zero := decide (r = 0), negative := decide (r > 0x7FFF),
                           carry := false, overflow := false }) ∧
      (d.toNat = 0 → exec (.div o) s = .next { s with runState := .faulted .divideByZero })) ∧
    (o.data = none → exec (.div o) s = .next s)

/-- INC adds 1 and DEC subtracts 1, in every mode and whatever the data byte; carry and overflow say that the
register wrapped (the spec's own choices D8 and D28, log 10). -/
def Obligations.IncAndDecCountByOne : Prop :=
  ∀ (o : Operands) (s : State),
    let old := (s.getReg o.reg1).toNat
    (let r := (old + 1) % 65536
     ∃ t, exec (.inc o) s = .next t ∧
       s.RegResult t o.reg1 r
         { s.flags with zero := decide (r = 0), negative := decide (r > 0x7FFF),
                        carry := decide (old = 65535), overflow := decide (old = 65535) }) ∧
    (let r := (old + 65535) % 65536
     ∃ t, exec (.dec o) s = .next t ∧
       s.RegResult t o.reg1 r
         { s.flags with zero := decide (r = 0), negative := decide (r > 0x7FFF),
                        carry := decide (old = 0), overflow := decide (old = 0) })

/-- 41_arithmetic.md section 3: after ADD carry is the unsigned carry-out and after SUB the unsigned borrow,
after MUL it compares the product with the old value, after DIV it is false; overflow always equals it. -/
def Obligations.CarryMeaningPerArithmeticOpcode : Prop :=
  ∀ (o : Operands) (s : State) (d : Byte), o.data = some d →
    let old := (s.getReg o.reg1).toNat
    (∃ t, exec (.add o) s = .next t ∧ t.flags.overflow = t.flags.carry ∧
      (t.flags.carry = true ↔ 65536 ≤ old + d.toNat)) ∧
    (∃ t, exec (.sub o) s = .next t ∧ t.flags.overflow = t.flags.carry ∧
      (t.flags.carry = true ↔ old < d.toNat)) ∧
    (∃ t, exec (.mul o) s = .next t ∧ t.flags.overflow = t.flags.carry ∧
      (t.flags.carry = true ↔ old < old * d.toNat % 65536)) ∧
    (d.toNat ≠ 0 → ∃ t, exec (.div o) s = .next t ∧ t.flags.overflow = false ∧ t.flags.carry = false)

/-! ### Logic and shifts (42_logic.md) -/

/-- R141, R142, R143: AND, OR and XOR with the zero-extended immediate write `zero` and `negative` and leave
carry and overflow alone; without a data byte they change nothing. -/
def Obligations.BitwiseImmediateOperations : Prop :=
  ∀ (o : Operands) (s : State),
    let old := (s.getReg o.reg1).toNat
    (∀ d, o.data = some d →
      (∃ t, exec (.and o) s = .next t ∧
        s.RegResult t o.reg1 (old &&& d.toNat)
          { s.flags with zero := decide (old &&& d.toNat = 0), negative := false }) ∧
      (∃ t, exec (.or o) s = .next t ∧
        s.RegResult t o.reg1 (old ||| d.toNat)
          { s.flags with zero := decide (old = 0 ∧ d.toNat = 0), negative := decide (old > 0x7FFF) }) ∧
      (∃ t, exec (.xor o) s = .next t ∧
        s.RegResult t o.reg1 (old ^^^ d.toNat)
          { s.flags with zero := decide (old = d.toNat), negative := decide (old > 0x7FFF) })) ∧
    (o.data = none →
      exec (.and o) s = .next s ∧ exec (.or o) s = .next s ∧ exec (.xor o) s = .next s)

/-- R144: NOT inverts all 16 bits, in every mode, and writes `zero` and `negative`; applied twice it restores
the register. -/
def Obligations.NotInvertsAllBits : Prop :=
  ∀ (o : Operands) (s : State),
    let r := 65535 - (s.getReg o.reg1).toNat
    ∃ t, exec (.not o) s = .next t ∧
      s.RegResult t o.reg1 r { s.flags with zero := decide (r = 0), negative := decide (r > 0x7FFF) } ∧
      ∃ u, exec (.not o) t = .next u ∧ u.regs = s.regs

/-- SHL and SHR are logical and take the count unreduced, so 16 and more give 0; carry and overflow are left
alone (the spec's own choices D15 and D17, logs 11 and 13). -/
def Obligations.ShiftsAreLogicalAndUnreduced : Prop :=
  ∀ (o : Operands) (s : State),
    let old := (s.getReg o.reg1).toNat
    (∀ d, o.data = some d →
      (let r := old * 2 ^ d.toNat % 65536
       ∃ t, exec (.shl o) s = .next t ∧
         s.RegResult t o.reg1 r { s.flags with zero := decide (r = 0), negative := decide (r > 0x7FFF) }) ∧
      (let r := old / 2 ^ d.toNat
       ∃ t, exec (.shr o) s = .next t ∧
         s.RegResult t o.reg1 r { s.flags with zero := decide (r = 0), negative := decide (r > 0x7FFF) })) ∧
    (o.data = none → exec (.shl o) s = .next s ∧ exec (.shr o) s = .next s)

/-! ### Control flow (43_control_flow.md) -/

/-- R151 to R154: JMP writes `pc` with the zero-extended data byte; JZ, JNZ and JC do so when `zero` is true,
`zero` is false, `carry` is true, and else change nothing, as all four do without a data byte. -/
def Obligations.JumpsWriteOnlyPc : Prop :=
  ∀ (o : Operands) (s : State),
    (∀ d, o.data = some d →
      let taken : State := { s with pc := BitVec.ofNat 16 d.toNat }
      exec (.jmp o) s = .next taken ∧
      exec (.jz o) s = .next (if s.flags.zero = true then taken else s) ∧
      exec (.jnz o) s = .next (if s.flags.zero = false then taken else s) ∧
      exec (.jc o) s = .next (if s.flags.carry = true then taken else s)) ∧
    (o.data = none →
      exec (.jmp o) s = .next s ∧ exec (.jz o) s = .next s ∧ exec (.jnz o) s = .next s ∧
      exec (.jc o) s = .next s)

/-- R155: CALL writes the low byte of `pc` at `sp - 1` and the high byte at `sp - 2`, leaves `sp` there and
jumps; when either address is outside memory it raises `MemoryFault` and writes nothing. -/
def Obligations.CallPushesReturnAddressAndJumps : Prop :=
  ∀ (o : Operands) (s : State),
    (∀ d, o.data = some d →
      ((s.sp - 1).toNat < s.config.memSize → (s.sp - 2).toNat < s.config.memSize →
        ∃ t, exec (.call o) s = .next t ∧
          (Memory.read t.mem (s.sp - 1).toNat).toNat = s.pc.toNat % 256 ∧
          (Memory.read t.mem (s.sp - 2).toNat).toNat = s.pc.toNat / 256 ∧
          (∀ a, a ≠ (s.sp - 1).toNat → a ≠ (s.sp - 2).toNat → Memory.read t.mem a = Memory.read s.mem a) ∧
          t = { s with mem := t.mem, sp := s.sp - 2, pc := BitVec.ofNat 16 d.toNat }) ∧
      (s.config.memSize ≤ (s.sp - 1).toNat ∨ s.config.memSize ≤ (s.sp - 2).toNat →
        exec (.call o) s = .next { s with runState := .faulted .memoryFault })) ∧
    (o.data = none → exec (.call o) s = .next s)

/-- RET reads the high byte at `sp` and the low byte at `sp + 1`, in every mode, and writes `sp` and `pc`
only; when either address is outside memory it raises `MemoryFault` and writes nothing (the spec's own choices
D12 and D19, logs 7 and 17). -/
def Obligations.RetPopsReturnAddress : Prop :=
  ∀ (o : Operands) (s : State),
    (s.sp.toNat < s.config.memSize → (s.sp + 1).toNat < s.config.memSize →
      exec (.ret o) s = .next
        { s with sp := s.sp + 2
                 pc := BitVec.ofNat 16
                   ((Memory.read s.mem s.sp.toNat).toNat * 256 + (Memory.read s.mem (s.sp + 1).toNat).toNat) }) ∧
    (s.config.memSize ≤ s.sp.toNat ∨ s.config.memSize ≤ (s.sp + 1).toNat →
      exec (.ret o) s = .next { s with runState := .faulted .memoryFault })

/-- The source's property of CALL and RET (95_test_vectors.md S9): whatever ran in between, if `sp` and the
two frame bytes are as CALL left them, RET brings back `pc` and `sp` and writes nothing else. -/
def Obligations.RetUndoesCall : Prop :=
  ∀ (o o' : Operands) (d : Byte) (s : State), o.data = some d →
    2 ≤ s.sp.toNat → s.sp.toNat ≤ s.config.memSize →
    ∃ t, exec (.call o) s = .next t ∧
      ∀ w : State, w.config = t.config → w.sp = t.sp →
        Memory.read w.mem t.sp.toNat = Memory.read t.mem t.sp.toNat →
        Memory.read w.mem (t.sp.toNat + 1) = Memory.read t.mem (t.sp.toNat + 1) →
        exec (.ret o') w = .next { w with pc := s.pc, sp := s.sp }

/-! ### Stack (44_stack.md) -/

/-- R160: PUSH writes the immediate byte at `sp - 1` and leaves `sp` there, nothing else; with that address
outside memory it raises `MemoryFault` and writes nothing; without a data byte it changes nothing. -/
def Obligations.PushStoresByteBelowSp : Prop :=
  ∀ (o : Operands) (s : State),
    (∀ d, o.data = some d →
      ((s.sp - 1).toNat < s.config.memSize →
        ∃ t, exec (.push o) s = .next t ∧
          Memory.read t.mem (s.sp - 1).toNat = d ∧
          (∀ a, a ≠ (s.sp - 1).toNat → Memory.read t.mem a = Memory.read s.mem a) ∧
          t = { s with mem := t.mem, sp := s.sp - 1 }) ∧
      (s.config.memSize ≤ (s.sp - 1).toNat →
        exec (.push o) s = .next { s with runState := .faulted .memoryFault })) ∧
    (o.data = none → exec (.push o) s = .next s)

/-- POP reads the byte at `sp`, zero-extends it into `x[reg1]` and adds 1 to `sp`, in every mode; it writes
`zero` and no other flag (the spec's own choice D15, log 11); on an empty stack it raises `MemoryFault` and
writes nothing (D9, D12, logs 7 and 16). -/
def Obligations.PopLoadsByteAtSp : Prop :=
  ∀ (o : Operands) (s : State),
    (s.sp.toNat < s.config.memSize →
      let v := (Memory.read s.mem s.sp.toNat).toNat
      ∃ t, exec (.pop o) s = .next t ∧
        State.RegResult { s with sp := s.sp + 1 } t o.reg1 v { s.flags with zero := decide (v = 0) }) ∧
    (s.config.memSize ≤ s.sp.toNat →
      exec (.pop o) s = .next { s with runState := .faulted .memoryFault })

/-- The source's property of PUSH and POP (95_test_vectors.md S8): a POP after a PUSH brings back `sp` and
loads the byte pushed; `pc` and `last` may have moved between the two. -/
def Obligations.PopUndoesPush : Prop :=
  ∀ (o o' : Operands) (d : Byte) (s : State) (p : Word) (l : Option Instr), o.data = some d →
    1 ≤ s.sp.toNat → s.sp.toNat ≤ s.config.memSize →
    ∃ t u, exec (.push o) s = .next t ∧ exec (.pop o') { t with pc := p, last := l } = .next u ∧
      u.sp = s.sp ∧ (u.getReg o'.reg1).toNat = d.toNat ∧
      (∀ j, j ≠ o'.reg1 → u.getReg j = s.getReg j) ∧
      (∀ a, a ≠ s.sp.toNat - 1 → Memory.read u.mem a = Memory.read s.mem a)

/-! ### System (45_system.md) -/

/-- R165: NOP, with any operand byte and data byte, changes nothing. -/
def Obligations.NopChangesNothing : Prop :=
  ∀ (o : Operands) (s : State), exec (.nop o) s = .next s

/-- R166: HALT, with any operand byte and data byte, sets the run state to `Halted` and changes nothing else. -/
def Obligations.HaltOnlySetsHalted : Prop :=
  ∀ (o : Operands) (s : State), exec (.halt o) s = .next { s with runState := .halted }

/-! ### Operand forms (30_encoding.md section 5) -/

/-- The eighteen data-requiring operations without a data byte are no-operations (the spec's own choice D7,
log 8), so each of them completes in modes 1 and 2. -/
def Obligations.MissingDataIsNoOperation : Prop :=
  ∀ mk ∈ dataRequiring, ∀ (o : Operands) (s : State), o.data = none → exec (mk o) s = .next s

/-- Which fields execution looks at (the spec's own choices D5, D6 and D8, logs 9 and 10): never the mode;
`reg2` in SWAP only; `reg1` in all but nine operations; the data byte in all but eight. -/
def Obligations.ExecutionIgnoresUnusedFields : Prop :=
  ∀ (o o' : Operands) (s : State),
    (o.reg1 = o'.reg1 → o.data = o'.data → ∀ mk ∈ dataRequiring, exec (mk o) s = exec (mk o') s) ∧
    (o.data = o'.data → ∀ mk ∈ reg1Ignoring, exec (mk o) s = exec (mk o') s) ∧
    (o.reg1 = o'.reg1 → ∀ mk ∈ dataIgnoring, (∀ q, mk q ≠ .swap q) → exec (mk o) s = exec (mk o') s) ∧
    (o.reg1 = o'.reg1 → o.reg2 = o'.reg2 → exec (.swap o) s = exec (.swap o') s)

/-! ### Encoding (30_encoding.md) -/

/-- Six words written out from the encoding (95_test_vectors.md V-E1 to V-E6). -/
def Obligations.SampleWordsDecode : Prop :=
  decode [0b00010000, 0b00001000, 0b00100000] = .ok (.add ⟨.immediate, 1, 0, some 0x20⟩) 3 ∧
  decode [0b00000011, 0b01001010] = .ok (.swap ⟨.register, 1, 2, none⟩) 2 ∧
  decode [0b00100100, 0b11110101, 0b00001100] = .ok (.shl ⟨.memory, 6, 5, some 0x0C⟩) 3 ∧
  decode [0b01000001, 0b10100011] = .ok (.pop ⟨.indirect, 4, 3, none⟩) 2 ∧
  decode [0b01111111, 0b00000000, 0b00000000] = .ok (.halt ⟨.immediate, 0, 0, some 0⟩) 3 ∧
  decode [0b00000000, 0b10110110] = .ok (.load ⟨.indirect, 6, 6, none⟩) 2

/-- 30_encoding.md section 6, the first direction of the round trip: for every well-formed instruction,
decoding its encoding, whatever bytes follow, gives it back and consumes exactly its bytes. -/
def Obligations.DecodeOfEncode : Prop :=
  ∀ (i : Instr) (rest : List Byte), i.wf = true →
    decode (encode i ++ rest) = .ok i (encode i).length

/-- 30_encoding.md section 6, the second direction: whatever the decoder accepts is a well-formed record whose
encoding is the bytes it consumed, two or three of them. -/
def Obligations.EncodeOfDecode : Prop :=
  ∀ (bytes : List Byte) (i : Instr) (n : Nat), decode bytes = .ok i n →
    i.wf = true ∧ encode i = bytes.take n ∧ n ≤ bytes.length ∧ (n = 2 ∨ n = 3)

/-- 30_encoding.md section 6: "The number of legal instruction byte sequences is 26 * 98 * 257 = 654836". -/
def Obligations.NumberOfLegalSequences : Prop :=
  Nat.card { bytes : List Byte // ∃ i, decode bytes = .ok i bytes.length } = 654836

/-- R82 and R83: of the bytes at `pc`, if the instruction lies in memory, both register fields are below 7 and
the opcode byte is a row of the table, the decoder gives `mode = ob[7:6]`, `reg1 = ob[5:3]`, `reg2 = ob[2:0]`,
and the data byte if and only if the mode is 0 or 3. -/
def Obligations.DecodeReadsOperandByteFields : Prop :=
  ∀ (op ob : Byte) (rest : List Byte),
    op ∈ legalOpcodeBytes → ob.toNat / 8 % 8 < 7 → ob.toNat % 8 < 7 →
    ((ob.toNat / 64 = 1 ∨ ob.toNat / 64 = 2) →
      ∃ i, decode (op :: ob :: rest) = .ok i 2 ∧ opcodeOf i = op ∧ i.operands.mode.code = ob.toNat / 64 ∧
        i.operands.reg1.val = ob.toNat / 8 % 8 ∧ i.operands.reg2.val = ob.toNat % 8 ∧ i.operands.data = none) ∧
    ((ob.toNat / 64 = 0 ∨ ob.toNat / 64 = 3) →
      ∀ d rest', rest = d :: rest' →
      ∃ i, decode (op :: ob :: rest) = .ok i 3 ∧ opcodeOf i = op ∧ i.operands.mode.code = ob.toNat / 64 ∧
        i.operands.reg1.val = ob.toNat / 8 % 8 ∧ i.operands.reg2.val = ob.toNat % 8 ∧ i.operands.data = some d)

/-- R91: the values of byte 0 outside the table, in the rule's own ranges, are 230, and each gives
`InvalidOpcode` when the earlier checks pass, after as many bytes as the instruction would have had. -/
def Obligations.IllegalOpcodeBytesAreInvalid : Prop :=
  let illegal : Byte → Prop := fun b =>
    (0x04 ≤ b.toNat ∧ b.toNat ≤ 0x0F) ∨ (0x16 ≤ b.toNat ∧ b.toNat ≤ 0x1F) ∨
    (0x26 ≤ b.toNat ∧ b.toNat ≤ 0x2F) ∨ (0x36 ≤ b.toNat ∧ b.toNat ≤ 0x3F) ∨
    (0x42 ≤ b.toNat ∧ b.toNat ≤ 0x6F) ∨ (0x71 ≤ b.toNat ∧ b.toNat ≤ 0x7E) ∨
    (0x80 ≤ b.toNat ∧ b.toNat ≤ 0xFF)
  Nat.card { b : Byte // illegal b } = 230 ∧
  (∀ b, illegal b ↔ b ∉ legalOpcodeBytes) ∧
  ∀ b, illegal b → ∀ (ob d : Byte) (rest : List Byte), ob.toNat / 8 % 8 < 7 → ob.toNat % 8 < 7 →
    decode (b :: ob :: d :: rest) =
      .fault .invalidOpcode (if ob.toNat / 64 = 1 ∨ ob.toNat / 64 = 2 then 2 else 3)

/-! ### The cycle and the decode faults (60_exceptions.md) -/

/-- R170: a cycle of a running core decodes at `pc`, executes the instruction with `pc` past it, and sets
`last`; a raise ends it, and a cycle that faults does not update `last`. -/
def Obligations.StepRunsDecodedInstruction : Prop :=
  ∀ s : State, s.runState = .running →
    (∀ k n, decode s.fetchBytes = .fault k n →
      step s = .next { s with pc := s.pc + BitVec.ofNat 16 n, runState := .faulted k }) ∧
    (∀ i n t, decode s.fetchBytes = .ok i n →
      exec i { s with pc := s.pc + BitVec.ofNat 16 n } = .next t →
      ((∃ k, t.runState = .faulted k) → step s = .next t) ∧
      ((∀ k, t.runState ≠ .faulted k) → step s = .next { t with last := some i }))

/-- The same of an instruction laid out in memory: if the bytes at `pc` are the encoding of a well-formed
instruction that lies below `MEM_SIZE`, the step is its execution (60_exceptions.md section 1, 30_encoding.md
section 6, 20_memory.md section 1). -/
def Obligations.StepRunsInstructionStoredAtPc : Prop :=
  ∀ (i : Instr) (s t : State), i.wf = true → s.runState = .running →
    s.pc.toNat + (encode i).length ≤ s.config.memSize →
    (∀ k (h : k < (encode i).length), Memory.read s.mem (s.pc.toNat + k) = (encode i)[k]) →
    exec i { s with pc := BitVec.ofNat 16 (s.pc.toNat + (encode i).length) } = .next t →
    ((∃ k, t.runState = .faulted k) → step s = .next t) ∧
    ((∀ k, t.runState ≠ .faulted k) → step s = .next { t with last := some i })

/-- R175: `ProgramCounterOutOfBounds`, `pc` and everything else unchanged. -/
def Obligations.ProgramCounterOutOfBoundsAtFetch : Prop :=
  ∀ s : State, s.runState = .running → s.config.memSize ≤ s.pc.toNat →
    step s = .next { s with runState := .faulted .programCounterOutOfBounds }

/-- R176: `MissingOperandByte`, whatever the opcode byte, `pc` then equal to `MEM_SIZE`. -/
def Obligations.MissingOperandByteAtFetch : Prop :=
  ∀ s : State, s.runState = .running → s.pc.toNat + 1 = s.config.memSize →
    step s = .next { s with pc := BitVec.ofNat 16 s.config.memSize, runState := .faulted .missingOperandByte }

/-- R177: `InvalidRegisterNumber`, whatever the opcode byte and the mode, `pc` advanced by 2; no byte after
the operand byte is looked at. -/
def Obligations.InvalidRegisterNumberAtFetch : Prop :=
  ∀ s : State, s.runState = .running → s.pc.toNat + 1 < s.config.memSize →
    ((Memory.read s.mem (s.pc.toNat + 1)).toNat / 8 % 8 = 7 ∨ (Memory.read s.mem (s.pc.toNat + 1)).toNat % 8 = 7) →
    step s = .next { s with pc := s.pc + 2, runState := .faulted .invalidRegisterNumber }

/-- R178: `MissingDataByte`, in modes 0 and 3 when the opcode byte stands at `MEM_SIZE - 2` and no register
field is 7, whatever the opcode byte; `pc` is then `MEM_SIZE`. -/
def Obligations.MissingDataByteAtFetch : Prop :=
  ∀ s : State, s.runState = .running → s.pc.toNat + 2 = s.config.memSize →
    (let ob := (Memory.read s.mem (s.pc.toNat + 1)).toNat
     ob / 8 % 8 ≠ 7 ∧ ob % 8 ≠ 7 ∧ (ob / 64 = 0 ∨ ob / 64 = 3)) →
    step s = .next { s with pc := BitVec.ofNat 16 s.config.memSize, runState := .faulted .missingDataByte }

/-- R179: `InvalidOpcode`, for an opcode byte outside the table when all earlier checks passed, `pc` advanced
by 2 in modes 1 and 2 and by 3 in modes 0 and 3. -/
def Obligations.InvalidOpcodeAtFetch : Prop :=
  ∀ s : State, s.runState = .running → s.pc.toNat + 1 < s.config.memSize →
    Memory.read s.mem s.pc.toNat ∉ legalOpcodeBytes →
    (let ob := (Memory.read s.mem (s.pc.toNat + 1)).toNat
     ob / 8 % 8 ≠ 7 ∧ ob % 8 ≠ 7) →
    (((Memory.read s.mem (s.pc.toNat + 1)).toNat / 64 = 1 ∨ (Memory.read s.mem (s.pc.toNat + 1)).toNat / 64 = 2) →
      step s = .next { s with pc := s.pc + 2, runState := .faulted .invalidOpcode }) ∧
    (((Memory.read s.mem (s.pc.toNat + 1)).toNat / 64 = 0 ∨ (Memory.read s.mem (s.pc.toNat + 1)).toNat / 64 = 3) →
      s.pc.toNat + 2 < s.config.memSize →
      step s = .next { s with pc := s.pc + 3, runState := .faulted .invalidOpcode })

/-! ### Execute faults, run states and runs (60_exceptions.md) -/

/-- When an access of an executing instruction raises `MemoryFault` (60_exceptions.md section 2; the spec's own
choice D9, log 16): from a running state whose `sp` is at most `MEM_SIZE`, exactly in these cases. -/
def Obligations.MemoryFaultExactlyWhen : Prop :=
  ∀ (s : State) (o : Operands) (d : Byte), s.runState = .running → s.sp.toNat ≤ s.config.memSize →
    let faulted : State := { s with runState := .faulted .memoryFault }
    (o.data = some d →
      (exec (.store o) s = .next faulted ↔ s.config.memSize ≤ (s.getReg o.reg1).toNat) ∧
      (exec (.push o) s = .next faulted ↔ s.sp.toNat = 0) ∧
      (exec (.call o) s = .next faulted ↔ s.sp.toNat ≤ 1)) ∧
    (exec (.pop o) s = .next faulted ↔ s.sp.toNat = s.config.memSize) ∧
    (exec (.ret o) s = .next faulted ↔ s.config.memSize ≤ s.sp.toNat + 1)

/-- A faulting instruction commits none of its own writes (60_exceptions.md section 4; the spec's own choice
D12, log 7), and only the two execute kinds can arise. -/
def Obligations.ExecuteFaultCommitsNothing : Prop :=
  ∀ (i : Instr) (s t : State) (k : FaultKind), s.runState = .running → exec i s = .next t →
    t.runState = .faulted k →
    t = { s with runState := .faulted k } ∧
    ((k = .memoryFault ∧ ∃ o, i = .store o ∨ i = .push o ∨ i = .pop o ∨ i = .call o ∨ i = .ret o) ∨
     (k = .divideByZero ∧ ∃ o, i = .div o ∧ o.data = some 0))

/-- `Step` is total: every state has a next state, no step stops the model (93_implementation_defined.md
section 2; for terminal states, log 4). -/
def Obligations.StepAlwaysAnswersNext : Prop :=
  ∀ s : State, ∃ t, step s = .next t

/-- The run-state machine of 60_exceptions.md section 1 (the spec's own choice D11, log 5): from `Running` a
decode fault gives that fault, HALT gives `Halted`, and any other decoded instruction gives `Running` or one of
the two execute faults. -/
def Obligations.RunStateMachine : Prop :=
  ∀ s t : State, s.runState = .running → step s = .next t →
    (∀ k n, decode s.fetchBytes = .fault k n → t.runState = .faulted k) ∧
    (∀ i n, decode s.fetchBytes = .ok i n →
      ((∃ o, i = .halt o) → t.runState = .halted) ∧
      ((∀ o, i ≠ .halt o) → t.runState = .running ∨
        t.runState = .faulted .memoryFault ∨ t.runState = .faulted .divideByZero))

/-- `Halted` and `Faulted(K)` are terminal: no cycle runs and no state changes (60_exceptions.md section 1).
That a step then answers the same state is the model's choice, log 4. -/
def Obligations.TerminalStatesStay : Prop :=
  ∀ s : State, s.Ended → step s = .next s ∧ ∀ n, Sys2Proof.core.run n s = .next s

/-- The run loop of 60_exceptions.md section 1, under fuel, is the host's run of the machine (log 4). -/
def Obligations.RunLoopIsHostRun : Prop :=
  ∀ (n : Nat) (s : State), runLoop n s = Sys2Proof.core.run n s

/-- Once a run has ended, more cycles change nothing: its end state is unique (70_reset_and_hazards.md section
3). -/
def Obligations.EndOfRunIsUnique : Prop :=
  ∀ (n m : Nat) (s t u : State), runLoop n s = .next t → runLoop m s = .next u → t.Ended → u.Ended → t = u

/-! ### Invariants and whole-machine rules -/

/-- Every step keeps the invariant: memory stays canonical and inside `MEM_SIZE`, `sp` stays at most `MEM_SIZE`
(10_state.md section 4), `last` stays a well-formed record; and the size never changes (20_memory.md section 1:
"never resized"). -/
def Obligations.StepKeepsInvariant : Prop :=
  ∀ s t : State, s.Inv → step s = .next t → t.Inv ∧ t.config = s.config

/-- The invariant holds after reset. -/
def Obligations.ResetMeetsInvariant : Prop := State.reset.Inv

/-- A core constructed from an image holds byte `k` of the image at address `k`, is in the reset state of
10_state.md section 8 in everything else, and meets the invariant (70_reset_and_hazards.md sections 1 and 2;
zero registers and flags and the empty `last` are the spec's own choices D14, D22 and D24, logs 2, 21, 24). -/
def Obligations.ConstructLoadsImage : Prop :=
  ∀ (config : Config) (image : List Byte), image.length = config.memSize →
    let s := State.construct config image
    (∀ k (h : k < image.length), Memory.read s.mem k = image[k]) ∧
    s.config = config ∧ s.pc = 0 ∧ s.sp.toNat = config.memSize ∧ s.runState = .running ∧
    (∀ j, s.getReg j = 0) ∧ s.bp = 0 ∧ s.flags = ⟨false, false, false, false, false⟩ ∧ s.last = none ∧ s.Inv

/-- `State.reset`: `pc` 0, `sp` at `MEM_SIZE`, running (10_state.md section 8), and the values that are the
spec's own choices D14 and D22 (logs 2, 24); its size 256 and its empty memory are the model's choices, logs 1
and 3. -/
def Obligations.ResetValues : Prop :=
  State.reset.config.memSize = 256 ∧ State.reset.pc.toNat = 0 ∧ State.reset.sp.toNat = 256 ∧
  State.reset.runState = .running ∧ (∀ j, (State.reset.getReg j).toNat = 0) ∧ State.reset.bp.toNat = 0 ∧
  State.reset.flags = ⟨false, false, false, false, false⟩ ∧ State.reset.last = none ∧
  ∀ a, Memory.read State.reset.mem a = 0

/-- The first cycle fetches from address 0 (70_reset_and_hazards.md section 1): the decoder reads the first
bytes of the image, at most three and at most `MEM_SIZE`. -/
def Obligations.FirstFetchIsAtAddressZero : Prop :=
  ∀ (config : Config) (image : List Byte), image.length = config.memSize →
    (State.construct config image).fetchBytes = image.take 3

/-- R29: no instruction reads or writes `bp`: a step leaves it, does the same whatever it holds, and a whole run
keeps the reset value. -/
def Obligations.BasePointerIsNeverUsed : Prop :=
  (∀ (s t : State) (b : Word), step s = .next t →
    t.bp = s.bp ∧ step { s with bp := b } = .next { t with bp := b }) ∧
  (∀ (n : Nat) (config : Config) (image : List Byte) (t : State),
    runLoop n (State.construct config image) = .next t → t.bp = (State.construct config image).bp)

/-- `flag.interrupt` has no effect and keeps its value (10_state.md section 5; the spec's own choice D24, log
21). -/
def Obligations.InterruptFlagIsNeverUsed : Prop :=
  ∀ (s t : State) (b : Bool), step s = .next t →
    t.flags.interrupt = s.flags.interrupt ∧
    step { s with flags := { s.flags with interrupt := b } } =
      .next { t with flags := { t.flags with interrupt := b } }

/-- `x[7]` exists as a cell but no instruction reads or writes it (10_state.md section 2; the spec's own choice
D3, log 18). -/
def Obligations.RegisterCellSevenIsNeverUsed : Prop :=
  ∀ (s t : State) (v : Word), step s = .next t →
    t.getReg 7 = s.getReg 7 ∧ step (s.setReg 7 v) = .next (t.setReg 7 v)

/-- No instruction reads `last`: a step does the same whatever it holds, and a fault-free cycle sets it to the
instruction decoded (10_state.md section 6; the spec's own choice D22, log 24). -/
def Obligations.LastIsForInspectionOnly : Prop :=
  ∀ (s : State) (l : Option Instr), ∃ t u,
    step s = .next t ∧ step { s with last := l } = .next u ∧ u = { t with last := u.last } ∧
    (∀ i n, s.runState = .running → decode s.fetchBytes = .ok i n → (∀ k, t.runState ≠ .faulted k) →
      t.last = some i ∧ u.last = some i)

/-- R36: JZ and JNZ read `zero`, JC reads `carry`, and no other instruction reads a flag; so none reads
`negative`, `overflow` or `interrupt`. -/
def Obligations.OnlyConditionalJumpsReadFlags : Prop :=
  ∀ (i : Instr) (s : State) (f : Flags),
    (((∀ o, i ≠ .jz o) ∧ (∀ o, i ≠ .jnz o) ∧ (∀ o, i ≠ .jc o)) → Instr.ReadsNoFlag i s f) ∧
    ((∃ o, i = .jz o ∨ i = .jnz o) → f.zero = s.flags.zero → Instr.ReadsNoFlag i s f) ∧
    ((∃ o, i = .jc o) → f.carry = s.flags.carry → Instr.ReadsNoFlag i s f) ∧
    (∀ o d t u, o.data = some d → s.pc.toNat ≠ d.toNat →
      (f.zero ≠ s.flags.zero → exec (.jz o) s = .next t → exec (.jz o) { s with flags := f } = .next u →
        t.pc ≠ u.pc) ∧
      (f.zero ≠ s.flags.zero → exec (.jnz o) s = .next t → exec (.jnz o) { s with flags := f } = .next u →
        t.pc ≠ u.pc) ∧
      (f.carry ≠ s.flags.carry → exec (.jc o) s = .next t → exec (.jc o) { s with flags := f } = .next u →
        t.pc ≠ u.pc))

/-- Which instructions write which flag (10_state.md section 5; the spec's own choice D15, log 11): a flag that
changed was written by an instruction of its column. -/
def Obligations.FlagWritersAreTheListedOnes : Prop :=
  ∀ (i : Instr) (s t : State), exec i s = .next t →
    (t.flags.zero ≠ s.flags.zero →
      ∃ mk ∈ arithmeticOps ++ logicOps ++ [Instr.load, Instr.mov, Instr.pop], i = mk i.operands) ∧
    (t.flags.negative ≠ s.flags.negative → ∃ mk ∈ arithmeticOps ++ logicOps, i = mk i.operands) ∧
    (t.flags.carry ≠ s.flags.carry → ∃ mk ∈ arithmeticOps, i = mk i.operands) ∧
    (t.flags.overflow ≠ s.flags.overflow → ∃ mk ∈ arithmeticOps, i = mk i.operands) ∧
    t.flags.interrupt = s.flags.interrupt

/-- Which instructions write which register (10_state.md section 2): a general register that changed is
`x[reg1]` of one of fifteen, or one of SWAP's two. -/
def Obligations.RegisterWritersAreTheListedOnes : Prop :=
  ∀ (i : Instr) (s t : State) (j : RegIdx), exec i s = .next t → t.getReg j ≠ s.getReg j →
    ((∃ mk ∈ arithmeticOps ++ logicOps ++ [Instr.load, Instr.mov, Instr.pop], i = mk i.operands) ∧
      j = i.operands.reg1) ∨
    (i = .swap i.operands ∧ (j = i.operands.reg1 ∨ j = i.operands.reg2))

/-- Which instructions write memory, and where (20_memory.md section 2): a byte that changed is STORE's, PUSH's,
or one of CALL's two. -/
def Obligations.MemoryWritersAreTheListedOnes : Prop :=
  ∀ (i : Instr) (s t : State) (a : Nat), exec i s = .next t → Memory.read t.mem a ≠ Memory.read s.mem a →
    (∃ o, i = .store o ∧ a = (s.getReg o.reg1).toNat) ∨
    (∃ o, i = .push o ∧ a = (s.sp - 1).toNat) ∨
    (∃ o, i = .call o ∧ (a = (s.sp - 1).toNat ∨ a = (s.sp - 2).toNat))

/-- Only PUSH, POP, CALL and RET read or write `sp` (10_state.md section 4): every other instruction leaves it
and does the same whatever it holds. -/
def Obligations.OnlyStackInstructionsUseSp : Prop :=
  ∀ (i : Instr) (s t : State) (v : Word),
    (∀ o, i ≠ .push o ∧ i ≠ .pop o ∧ i ≠ .call o ∧ i ≠ .ret o) → exec i s = .next t →
    t.sp = s.sp ∧ exec i { s with sp := v } = .next { t with sp := v }

/-- What writes `pc` (10_state.md section 3): after a fault-free cycle of an instruction that is no jump, CALL
or RET, `pc` is the instruction's own address plus its length. -/
def Obligations.SequentialPcAdvance : Prop :=
  ∀ (s t : State) (i : Instr) (n : Nat), s.runState = .running → decode s.fetchBytes = .ok i n →
    (∀ o, i ≠ .jmp o ∧ i ≠ .jz o ∧ i ≠ .jnz o ∧ i ≠ .jc o ∧ i ≠ .call o ∧ i ≠ .ret o) →
    step s = .next t → t.pc.toNat = s.pc.toNat + (encode i).length

/-- A byte written by STORE or PUSH is what the next fetch reads, wherever in an instruction it lies
(20_memory.md section 8; the spec's own choice D26, log 22). -/
def Obligations.StoredByteIsFetched : Prop :=
  ∀ (o : Operands) (s : State) (d : Byte) (p : Word) (k : Nat), o.data = some d → k < 3 →
    ((s.getReg o.reg1).toNat < s.config.memSize → p.toNat + k = (s.getReg o.reg1).toNat →
      ∃ t, exec (.store o) s = .next t ∧ (State.fetchBytes { t with pc := p })[k]? = some d) ∧
    ((s.sp - 1).toNat < s.config.memSize → p.toNat + k = (s.sp - 1).toNat →
      ∃ t, exec (.push o) s = .next t ∧ (State.fetchBytes { t with pc := p })[k]? = some d)
end

