-- ==== Sys2Proof/Laws/Memory.lean ====
section
/-! SUPPORT. The laws of memory as data: a read after a write, and that every operation keeps the canonical
form `Memory.wf` and the bound on the addresses listed. -/

namespace Sys2Proof.Machine

/-! ### Reading -/

theorem Memory.read_erase_same (m : Memory) (a : Nat) :
    Memory.read (Memory.erase m a) a = Memory.unlistedByte := by
  induction m with
  | nil => rfl
  | cons c rest ih =>
    obtain ⟨b, v⟩ := c
    by_cases h : b = a
    · simpa [Memory.erase, h] using ih
    · simpa [Memory.erase, Memory.read, h] using ih

theorem Memory.read_erase_other (m : Memory) {a b : Nat} (h : b ≠ a) :
    Memory.read (Memory.erase m a) b = Memory.read m b := by
  induction m with
  | nil => rfl
  | cons c rest ih =>
    obtain ⟨k, v⟩ := c
    by_cases hk : k = a
    · have hkb : k ≠ b := by omega
      simpa [Memory.erase, Memory.read, hk, hkb, h.symm] using ih
    · by_cases hb : k = b
      · simp [Memory.erase, Memory.read, hb, h]
      · simpa [Memory.erase, Memory.read, hk, hb] using ih

theorem Memory.read_insert_same (m : Memory) (a : Nat) (v : Byte) (h : ∀ c ∈ m, c.1 ≠ a) :
    Memory.read (Memory.insert m a v) a = v := by
  induction m with
  | nil => simp [Memory.insert, Memory.read]
  | cons c rest ih =>
    obtain ⟨k, w⟩ := c
    have hk : k ≠ a := h (k, w) (by simp)
    by_cases hlt : a < k
    · simp [Memory.insert, Memory.read, hlt]
    · have := ih fun c hc => h c (by simp [hc])
      simpa [Memory.insert, Memory.read, hlt, hk] using this

theorem Memory.read_insert_other (m : Memory) {a b : Nat} (v : Byte) (h : b ≠ a) :
    Memory.read (Memory.insert m a v) b = Memory.read m b := by
  induction m with
  | nil => simp [Memory.insert, Memory.read, h.symm]
  | cons c rest ih =>
    obtain ⟨k, w⟩ := c
    by_cases hlt : a < k
    · simp [Memory.insert, Memory.read, hlt, h.symm]
    · by_cases hb : k = b
      · subst hb; simp [Memory.insert, Memory.read, hlt]
      · simp [Memory.insert, Memory.read, hlt, hb, ih]

theorem Memory.mem_erase {m : Memory} {a : Nat} {c : Host.Cell} :
    c ∈ Memory.erase m a ↔ c ∈ m ∧ c.1 ≠ a := by
  simp [Memory.erase]

theorem Memory.mem_insert {m : Memory} {a : Nat} {v : Byte} {c : Host.Cell} :
    c ∈ Memory.insert m a v ↔ c = (a, v) ∨ c ∈ m := by
  induction m with
  | nil => simp [Memory.insert]
  | cons d rest ih =>
    obtain ⟨k, w⟩ := d
    by_cases hlt : a < k
    · simp [Memory.insert, hlt]
    · simp only [Memory.insert, hlt, if_false, List.mem_cons, ih]
      tauto

/-- The byte written is the byte read back, whatever the memory. -/
@[simp] theorem Memory.read_write_same (m : Memory) (a : Nat) (v : Byte) :
    Memory.read (Memory.write m a v) a = v := by
  by_cases h : v = Memory.unlistedByte
  · simp [Memory.write, h, Memory.read_erase_same]
  · simp only [Memory.write, h, if_false]
    exact Memory.read_insert_same _ _ _ fun c hc => (Memory.mem_erase.mp hc).2

/-- A write leaves every other address alone. -/
theorem Memory.read_write_other (m : Memory) {a b : Nat} (v : Byte) (h : b ≠ a) :
    Memory.read (Memory.write m a v) b = Memory.read m b := by
  by_cases hv : v = Memory.unlistedByte
  · simp [Memory.write, hv, Memory.read_erase_other m h]
  · simp [Memory.write, hv, Memory.read_insert_other _ v h, Memory.read_erase_other m h]

/-- Both cases at once. -/
theorem Memory.read_write (m : Memory) (a b : Nat) (v : Byte) :
    Memory.read (Memory.write m a v) b = if b = a then v else Memory.read m b := by
  by_cases h : b = a
  · subst h; simp
  · simp [h, Memory.read_write_other m v h]

/-- What storing bytes at rising addresses leaves at each address. -/
theorem Memory.read_writeBytes (m : Memory) (a b : Nat) (bytes : List Byte) :
    Memory.read (Memory.writeBytes m a bytes) b =
      if a ≤ b then bytes.getD (b - a) (Memory.read m b) else Memory.read m b := by
  induction bytes generalizing m a with
  | nil => simp [Memory.writeBytes]
  | cons v rest ih =>
    rw [Memory.writeBytes, ih, Memory.read_write]
    by_cases hab : b = a
    · subst hab; simp
    · by_cases hle : a ≤ b
      · have h1 : a + 1 ≤ b := by omega
        have h2 : b - a = (b - (a + 1)) + 1 := by omega
        simp [hle, h1, hab, h2]
      · have h1 : ¬ a + 1 ≤ b := by omega
        simp [hle, h1, hab]

/-! ### The canonical form -/

theorem Memory.wf_erase {m : Memory} (a : Nat) (h : Memory.wf m) : Memory.wf (Memory.erase m a) :=
  ⟨h.1.filter _, fun c hc => h.2 c (Memory.mem_erase.mp hc).1⟩

theorem Memory.rising_insert {m : Memory} {a : Nat} (v : Byte) (h : m.Pairwise fun c d => c.1 < d.1)
    (hne : ∀ c ∈ m, c.1 ≠ a) : (Memory.insert m a v).Pairwise fun c d => c.1 < d.1 := by
  induction m with
  | nil => simp [Memory.insert]
  | cons d rest ih =>
    obtain ⟨k, w⟩ := d
    obtain ⟨hk, hrest⟩ := List.pairwise_cons.mp h
    by_cases hlt : a < k
    · rw [Memory.insert, if_pos hlt]
      refine List.pairwise_cons.mpr ⟨?_, h⟩
      intro c hc
      rcases List.mem_cons.mp hc with rfl | hc
      · exact hlt
      · exact hlt.trans (hk c hc)
    · rw [Memory.insert, if_neg hlt]
      refine List.pairwise_cons.mpr ⟨?_, ih hrest fun c hc => hne c (by simp [hc])⟩
      intro c hc
      rcases Memory.mem_insert.mp hc with rfl | hc
      · have : k ≠ a := hne (k, w) (by simp)
        simp only; omega
      · exact hk c hc

/-- A write keeps the canonical form. -/
theorem Memory.wf_write {m : Memory} (a : Nat) (v : Byte) (h : Memory.wf m) :
    Memory.wf (Memory.write m a v) := by
  by_cases hv : v = Memory.unlistedByte
  · simpa [Memory.write, hv] using Memory.wf_erase a h
  · simp only [Memory.write, hv, if_false]
    have he := Memory.wf_erase a h
    refine ⟨Memory.rising_insert v he.1 fun c hc => (Memory.mem_erase.mp hc).2, ?_⟩
    intro c hc
    rcases Memory.mem_insert.mp hc with rfl | hc
    · exact hv
    · exact he.2 c hc

/-- Storing bytes keeps the canonical form. -/
theorem Memory.wf_writeBytes {m : Memory} (a : Nat) (bytes : List Byte) (h : Memory.wf m) :
    Memory.wf (Memory.writeBytes m a bytes) := by
  induction bytes generalizing m a with
  | nil => exact h
  | cons v rest ih => exact ih (a + 1) (Memory.wf_write a v h)

/-- Memory with nothing listed is canonical. -/
theorem Memory.wf_nil : Memory.wf [] := ⟨List.Pairwise.nil, by simp⟩

/-- The memory of an image is canonical. -/
theorem Memory.wf_ofImage (image : List Byte) : Memory.wf (Memory.ofImage image) :=
  Memory.wf_writeBytes 0 image Memory.wf_nil

/-- A constructed core's memory is canonical, whatever the image. -/
theorem State.wf_construct (config : Config) (image : List Byte) : Memory.wf (State.construct config image).mem :=
  Memory.wf_ofImage _

/-- Placing bytes at `pc` keeps the canonical form. -/
theorem State.wf_placeAtPc {s : State} (bytes : List Byte) (h : Memory.wf s.mem) :
    Memory.wf (s.placeAtPc bytes).mem := Memory.wf_writeBytes _ _ h

/-! ### The addresses listed -/

/-- A write below `n` lists no address at or above `n`. -/
theorem Memory.bound_write {m : Memory} {a n : Nat} (v : Byte) (h : ∀ c ∈ m, c.1 < n) (ha : a < n) :
    ∀ c ∈ Memory.write m a v, c.1 < n := by
  intro c hc
  by_cases hv : v = Memory.unlistedByte
  · simp only [Memory.write, hv, if_true] at hc
    exact h c (Memory.mem_erase.mp hc).1
  · simp only [Memory.write, hv, if_false] at hc
    rcases Memory.mem_insert.mp hc with rfl | hc
    · exact ha
    · exact h c (Memory.mem_erase.mp hc).1

/-- Storing bytes that end at or below `n` lists no address at or above `n`. -/
theorem Memory.bound_writeBytes {m : Memory} {a n : Nat} (bytes : List Byte) (h : ∀ c ∈ m, c.1 < n)
    (ha : a + bytes.length ≤ n) : ∀ c ∈ Memory.writeBytes m a bytes, c.1 < n := by
  induction bytes generalizing m a with
  | nil => exact h
  | cons v rest ih =>
    simp only [List.length_cons] at ha
    exact ih (Memory.bound_write v h (by omega)) (by omega)

end Sys2Proof.Machine
end

