-- ==== Sys2Proof/Laws/State.lean ====
section
/-! SUPPORT. One lemma per field per update of State, and read-after-write of the register file, so that no
later proof unfolds a record update. -/

namespace Sys2Proof.Machine

/-! ### setReg -/

@[simp] theorem State.setReg_config (s : State) (i : RegIdx) (v : Word) : (s.setReg i v).config = s.config := rfl
@[simp] theorem State.setReg_pc (s : State) (i : RegIdx) (v : Word) : (s.setReg i v).pc = s.pc := rfl
@[simp] theorem State.setReg_sp (s : State) (i : RegIdx) (v : Word) : (s.setReg i v).sp = s.sp := rfl
@[simp] theorem State.setReg_bp (s : State) (i : RegIdx) (v : Word) : (s.setReg i v).bp = s.bp := rfl
@[simp] theorem State.setReg_flags (s : State) (i : RegIdx) (v : Word) : (s.setReg i v).flags = s.flags := rfl
@[simp] theorem State.setReg_runState (s : State) (i : RegIdx) (v : Word) : (s.setReg i v).runState = s.runState := rfl
@[simp] theorem State.setReg_last (s : State) (i : RegIdx) (v : Word) : (s.setReg i v).last = s.last := rfl
@[simp] theorem State.setReg_mem (s : State) (i : RegIdx) (v : Word) : (s.setReg i v).mem = s.mem := rfl
@[simp] theorem State.setReg_inMemory (s : State) (i : RegIdx) (v : Word) (c : Word) : (s.setReg i v).inMemory c = s.inMemory c := rfl

/-! ### setPc -/

@[simp] theorem State.setPc_config (s : State) (v : Word) : (s.setPc v).config = s.config := rfl
@[simp] theorem State.setPc_regs (s : State) (v : Word) : (s.setPc v).regs = s.regs := rfl
@[simp] theorem State.setPc_pc (s : State) (v : Word) : (s.setPc v).pc = v := rfl
@[simp] theorem State.setPc_sp (s : State) (v : Word) : (s.setPc v).sp = s.sp := rfl
@[simp] theorem State.setPc_bp (s : State) (v : Word) : (s.setPc v).bp = s.bp := rfl
@[simp] theorem State.setPc_flags (s : State) (v : Word) : (s.setPc v).flags = s.flags := rfl
@[simp] theorem State.setPc_runState (s : State) (v : Word) : (s.setPc v).runState = s.runState := rfl
@[simp] theorem State.setPc_last (s : State) (v : Word) : (s.setPc v).last = s.last := rfl
@[simp] theorem State.setPc_mem (s : State) (v : Word) : (s.setPc v).mem = s.mem := rfl
@[simp] theorem State.setPc_getReg (s : State) (v : Word) (j : RegIdx) : (s.setPc v).getReg j = s.getReg j := rfl
@[simp] theorem State.setPc_inMemory (s : State) (v : Word) (c : Word) : (s.setPc v).inMemory c = s.inMemory c := rfl

/-! ### setSp -/

@[simp] theorem State.setSp_config (s : State) (v : Word) : (s.setSp v).config = s.config := rfl
@[simp] theorem State.setSp_regs (s : State) (v : Word) : (s.setSp v).regs = s.regs := rfl
@[simp] theorem State.setSp_pc (s : State) (v : Word) : (s.setSp v).pc = s.pc := rfl
@[simp] theorem State.setSp_sp (s : State) (v : Word) : (s.setSp v).sp = v := rfl
@[simp] theorem State.setSp_bp (s : State) (v : Word) : (s.setSp v).bp = s.bp := rfl
@[simp] theorem State.setSp_flags (s : State) (v : Word) : (s.setSp v).flags = s.flags := rfl
@[simp] theorem State.setSp_runState (s : State) (v : Word) : (s.setSp v).runState = s.runState := rfl
@[simp] theorem State.setSp_last (s : State) (v : Word) : (s.setSp v).last = s.last := rfl
@[simp] theorem State.setSp_mem (s : State) (v : Word) : (s.setSp v).mem = s.mem := rfl
@[simp] theorem State.setSp_getReg (s : State) (v : Word) (j : RegIdx) : (s.setSp v).getReg j = s.getReg j := rfl
@[simp] theorem State.setSp_inMemory (s : State) (v : Word) (c : Word) : (s.setSp v).inMemory c = s.inMemory c := rfl

/-! ### setFlags -/

@[simp] theorem State.setFlags_config (s : State) (f : Flags) : (s.setFlags f).config = s.config := rfl
@[simp] theorem State.setFlags_regs (s : State) (f : Flags) : (s.setFlags f).regs = s.regs := rfl
@[simp] theorem State.setFlags_pc (s : State) (f : Flags) : (s.setFlags f).pc = s.pc := rfl
@[simp] theorem State.setFlags_sp (s : State) (f : Flags) : (s.setFlags f).sp = s.sp := rfl
@[simp] theorem State.setFlags_bp (s : State) (f : Flags) : (s.setFlags f).bp = s.bp := rfl
@[simp] theorem State.setFlags_flags (s : State) (f : Flags) : (s.setFlags f).flags = f := rfl
@[simp] theorem State.setFlags_runState (s : State) (f : Flags) : (s.setFlags f).runState = s.runState := rfl
@[simp] theorem State.setFlags_last (s : State) (f : Flags) : (s.setFlags f).last = s.last := rfl
@[simp] theorem State.setFlags_mem (s : State) (f : Flags) : (s.setFlags f).mem = s.mem := rfl
@[simp] theorem State.setFlags_getReg (s : State) (f : Flags) (j : RegIdx) : (s.setFlags f).getReg j = s.getReg j := rfl
@[simp] theorem State.setFlags_inMemory (s : State) (f : Flags) (c : Word) : (s.setFlags f).inMemory c = s.inMemory c := rfl

/-! ### setRunState -/

@[simp] theorem State.setRunState_config (s : State) (r : RunState) : (s.setRunState r).config = s.config := rfl
@[simp] theorem State.setRunState_regs (s : State) (r : RunState) : (s.setRunState r).regs = s.regs := rfl
@[simp] theorem State.setRunState_pc (s : State) (r : RunState) : (s.setRunState r).pc = s.pc := rfl
@[simp] theorem State.setRunState_sp (s : State) (r : RunState) : (s.setRunState r).sp = s.sp := rfl
@[simp] theorem State.setRunState_bp (s : State) (r : RunState) : (s.setRunState r).bp = s.bp := rfl
@[simp] theorem State.setRunState_flags (s : State) (r : RunState) : (s.setRunState r).flags = s.flags := rfl
@[simp] theorem State.setRunState_runState (s : State) (r : RunState) : (s.setRunState r).runState = r := rfl
@[simp] theorem State.setRunState_last (s : State) (r : RunState) : (s.setRunState r).last = s.last := rfl
@[simp] theorem State.setRunState_mem (s : State) (r : RunState) : (s.setRunState r).mem = s.mem := rfl
@[simp] theorem State.setRunState_getReg (s : State) (r : RunState) (j : RegIdx) : (s.setRunState r).getReg j = s.getReg j := rfl
@[simp] theorem State.setRunState_inMemory (s : State) (r : RunState) (c : Word) : (s.setRunState r).inMemory c = s.inMemory c := rfl

/-! ### setLast -/

@[simp] theorem State.setLast_config (s : State) (i : Option Instr) : (s.setLast i).config = s.config := rfl
@[simp] theorem State.setLast_regs (s : State) (i : Option Instr) : (s.setLast i).regs = s.regs := rfl
@[simp] theorem State.setLast_pc (s : State) (i : Option Instr) : (s.setLast i).pc = s.pc := rfl
@[simp] theorem State.setLast_sp (s : State) (i : Option Instr) : (s.setLast i).sp = s.sp := rfl
@[simp] theorem State.setLast_bp (s : State) (i : Option Instr) : (s.setLast i).bp = s.bp := rfl
@[simp] theorem State.setLast_flags (s : State) (i : Option Instr) : (s.setLast i).flags = s.flags := rfl
@[simp] theorem State.setLast_runState (s : State) (i : Option Instr) : (s.setLast i).runState = s.runState := rfl
@[simp] theorem State.setLast_last (s : State) (i : Option Instr) : (s.setLast i).last = i := rfl
@[simp] theorem State.setLast_mem (s : State) (i : Option Instr) : (s.setLast i).mem = s.mem := rfl
@[simp] theorem State.setLast_getReg (s : State) (i : Option Instr) (j : RegIdx) : (s.setLast i).getReg j = s.getReg j := rfl
@[simp] theorem State.setLast_inMemory (s : State) (i : Option Instr) (c : Word) : (s.setLast i).inMemory c = s.inMemory c := rfl

/-! ### setMem -/

@[simp] theorem State.setMem_config (s : State) (m : Memory) : (s.setMem m).config = s.config := rfl
@[simp] theorem State.setMem_regs (s : State) (m : Memory) : (s.setMem m).regs = s.regs := rfl
@[simp] theorem State.setMem_pc (s : State) (m : Memory) : (s.setMem m).pc = s.pc := rfl
@[simp] theorem State.setMem_sp (s : State) (m : Memory) : (s.setMem m).sp = s.sp := rfl
@[simp] theorem State.setMem_bp (s : State) (m : Memory) : (s.setMem m).bp = s.bp := rfl
@[simp] theorem State.setMem_flags (s : State) (m : Memory) : (s.setMem m).flags = s.flags := rfl
@[simp] theorem State.setMem_runState (s : State) (m : Memory) : (s.setMem m).runState = s.runState := rfl
@[simp] theorem State.setMem_last (s : State) (m : Memory) : (s.setMem m).last = s.last := rfl
@[simp] theorem State.setMem_mem (s : State) (m : Memory) : (s.setMem m).mem = m := rfl
@[simp] theorem State.setMem_getReg (s : State) (m : Memory) (j : RegIdx) : (s.setMem m).getReg j = s.getReg j := rfl
@[simp] theorem State.setMem_inMemory (s : State) (m : Memory) (c : Word) : (s.setMem m).inMemory c = s.inMemory c := rfl

/-! ### Read after write of the register file -/

/-- The register written reads as the value written. -/
@[simp] theorem State.getReg_setReg_same (s : State) (i : RegIdx) (v : Word) : (s.setReg i v).getReg i = v := by
  simp [State.getReg, State.setReg]

/-- Every other register reads as before. -/
theorem State.getReg_setReg_other (s : State) {i j : RegIdx} (v : Word) (h : j ≠ i) :
    (s.setReg i v).getReg j = s.getReg j := by
  have hij : i.val ≠ j.val := fun e => h (Fin.ext e.symm)
  simp [State.getReg, State.setReg, hij]

/-- Both cases at once. -/
theorem State.getReg_setReg (s : State) (i j : RegIdx) (v : Word) :
    (s.setReg i v).getReg j = if j = i then v else s.getReg j := by
  by_cases h : j = i
  · subst h; simp
  · simp [h, State.getReg_setReg_other s v h]

/-- Two states are equal when all their fields are, the register file cell by cell. -/
theorem State.ext_of_fields {s t : State} (hc : s.config = t.config) (hr : ∀ i, s.getReg i = t.getReg i)
    (hp : s.pc = t.pc) (hs : s.sp = t.sp) (hb : s.bp = t.bp) (hf : s.flags = t.flags)
    (hu : s.runState = t.runState) (hl : s.last = t.last) (hm : s.mem = t.mem) : s = t := by
  have hregs : s.regs = t.regs := by
    apply Vector.ext
    intro k hk
    exact hr ⟨k, hk⟩
  cases s; cases t; simp_all

/-! ### The composite register writes -/

@[simp] theorem State.writeLoaded_config (s : State) (a : RegIdx) (r : Word) : (s.writeLoaded a r).config = s.config := rfl
@[simp] theorem State.writeLoaded_pc (s : State) (a : RegIdx) (r : Word) : (s.writeLoaded a r).pc = s.pc := rfl
@[simp] theorem State.writeLoaded_sp (s : State) (a : RegIdx) (r : Word) : (s.writeLoaded a r).sp = s.sp := rfl
@[simp] theorem State.writeLoaded_bp (s : State) (a : RegIdx) (r : Word) : (s.writeLoaded a r).bp = s.bp := rfl
@[simp] theorem State.writeLoaded_flags (s : State) (a : RegIdx) (r : Word) : (s.writeLoaded a r).flags = s.flags.withZero r := rfl
@[simp] theorem State.writeLoaded_runState (s : State) (a : RegIdx) (r : Word) : (s.writeLoaded a r).runState = s.runState := rfl
@[simp] theorem State.writeLoaded_last (s : State) (a : RegIdx) (r : Word) : (s.writeLoaded a r).last = s.last := rfl
@[simp] theorem State.writeLoaded_mem (s : State) (a : RegIdx) (r : Word) : (s.writeLoaded a r).mem = s.mem := rfl
@[simp] theorem State.writeLoaded_getReg (s : State) (a j : RegIdx) (r : Word) :
    (s.writeLoaded a r).getReg j = if j = a then r else s.getReg j := s.getReg_setReg a j r

@[simp] theorem State.writeLogic_config (s : State) (a : RegIdx) (r : Word) : (s.writeLogic a r).config = s.config := rfl
@[simp] theorem State.writeLogic_pc (s : State) (a : RegIdx) (r : Word) : (s.writeLogic a r).pc = s.pc := rfl
@[simp] theorem State.writeLogic_sp (s : State) (a : RegIdx) (r : Word) : (s.writeLogic a r).sp = s.sp := rfl
@[simp] theorem State.writeLogic_bp (s : State) (a : RegIdx) (r : Word) : (s.writeLogic a r).bp = s.bp := rfl
@[simp] theorem State.writeLogic_flags (s : State) (a : RegIdx) (r : Word) : (s.writeLogic a r).flags = s.flags.withLogic r := rfl
@[simp] theorem State.writeLogic_runState (s : State) (a : RegIdx) (r : Word) : (s.writeLogic a r).runState = s.runState := rfl
@[simp] theorem State.writeLogic_last (s : State) (a : RegIdx) (r : Word) : (s.writeLogic a r).last = s.last := rfl
@[simp] theorem State.writeLogic_mem (s : State) (a : RegIdx) (r : Word) : (s.writeLogic a r).mem = s.mem := rfl
@[simp] theorem State.writeLogic_getReg (s : State) (a j : RegIdx) (r : Word) :
    (s.writeLogic a r).getReg j = if j = a then r else s.getReg j := s.getReg_setReg a j r

@[simp] theorem State.writeAddType_config (s : State) (a : RegIdx) (r : Word) : (s.writeAddType a r).config = s.config := rfl
@[simp] theorem State.writeAddType_pc (s : State) (a : RegIdx) (r : Word) : (s.writeAddType a r).pc = s.pc := rfl
@[simp] theorem State.writeAddType_sp (s : State) (a : RegIdx) (r : Word) : (s.writeAddType a r).sp = s.sp := rfl
@[simp] theorem State.writeAddType_bp (s : State) (a : RegIdx) (r : Word) : (s.writeAddType a r).bp = s.bp := rfl
@[simp] theorem State.writeAddType_flags (s : State) (a : RegIdx) (r : Word) : (s.writeAddType a r).flags = s.flags.withArith r (coAdd (s.getReg a) r) := rfl
@[simp] theorem State.writeAddType_runState (s : State) (a : RegIdx) (r : Word) : (s.writeAddType a r).runState = s.runState := rfl
@[simp] theorem State.writeAddType_last (s : State) (a : RegIdx) (r : Word) : (s.writeAddType a r).last = s.last := rfl
@[simp] theorem State.writeAddType_mem (s : State) (a : RegIdx) (r : Word) : (s.writeAddType a r).mem = s.mem := rfl
@[simp] theorem State.writeAddType_getReg (s : State) (a j : RegIdx) (r : Word) :
    (s.writeAddType a r).getReg j = if j = a then r else s.getReg j := s.getReg_setReg a j r

@[simp] theorem State.writeSubType_config (s : State) (a : RegIdx) (r : Word) : (s.writeSubType a r).config = s.config := rfl
@[simp] theorem State.writeSubType_pc (s : State) (a : RegIdx) (r : Word) : (s.writeSubType a r).pc = s.pc := rfl
@[simp] theorem State.writeSubType_sp (s : State) (a : RegIdx) (r : Word) : (s.writeSubType a r).sp = s.sp := rfl
@[simp] theorem State.writeSubType_bp (s : State) (a : RegIdx) (r : Word) : (s.writeSubType a r).bp = s.bp := rfl
@[simp] theorem State.writeSubType_flags (s : State) (a : RegIdx) (r : Word) : (s.writeSubType a r).flags = s.flags.withArith r (coSub (s.getReg a) r) := rfl
@[simp] theorem State.writeSubType_runState (s : State) (a : RegIdx) (r : Word) : (s.writeSubType a r).runState = s.runState := rfl
@[simp] theorem State.writeSubType_last (s : State) (a : RegIdx) (r : Word) : (s.writeSubType a r).last = s.last := rfl
@[simp] theorem State.writeSubType_mem (s : State) (a : RegIdx) (r : Word) : (s.writeSubType a r).mem = s.mem := rfl
@[simp] theorem State.writeSubType_getReg (s : State) (a j : RegIdx) (r : Word) :
    (s.writeSubType a r).getReg j = if j = a then r else s.getReg j := s.getReg_setReg a j r

@[simp] theorem Flags.withZero_zero (f : Flags) (r : Word) : (f.withZero r).zero = zeroOf r := rfl
@[simp] theorem Flags.withZero_negative (f : Flags) (r : Word) : (f.withZero r).negative = f.negative := rfl
@[simp] theorem Flags.withZero_carry (f : Flags) (r : Word) : (f.withZero r).carry = f.carry := rfl
@[simp] theorem Flags.withZero_overflow (f : Flags) (r : Word) : (f.withZero r).overflow = f.overflow := rfl
@[simp] theorem Flags.withZero_interrupt (f : Flags) (r : Word) : (f.withZero r).interrupt = f.interrupt := rfl

@[simp] theorem Flags.withLogic_zero (f : Flags) (r : Word) : (f.withLogic r).zero = zeroOf r := rfl
@[simp] theorem Flags.withLogic_negative (f : Flags) (r : Word) : (f.withLogic r).negative = negativeOf r := rfl
@[simp] theorem Flags.withLogic_carry (f : Flags) (r : Word) : (f.withLogic r).carry = f.carry := rfl
@[simp] theorem Flags.withLogic_overflow (f : Flags) (r : Word) : (f.withLogic r).overflow = f.overflow := rfl
@[simp] theorem Flags.withLogic_interrupt (f : Flags) (r : Word) : (f.withLogic r).interrupt = f.interrupt := rfl

@[simp] theorem Flags.withArith_zero (f : Flags) (r : Word) (co : Bool) : (f.withArith r co).zero = zeroOf r := rfl
@[simp] theorem Flags.withArith_negative (f : Flags) (r : Word) (co : Bool) : (f.withArith r co).negative = negativeOf r := rfl
@[simp] theorem Flags.withArith_carry (f : Flags) (r : Word) (co : Bool) : (f.withArith r co).carry = co := rfl
@[simp] theorem Flags.withArith_overflow (f : Flags) (r : Word) (co : Bool) : (f.withArith r co).overflow = co := rfl
@[simp] theorem Flags.withArith_interrupt (f : Flags) (r : Word) (co : Bool) : (f.withArith r co).interrupt = f.interrupt := rfl

end Sys2Proof.Machine
end

