-- ==== Sys2Proof/Laws/Ops.lean ====
section
/-! SUPPORT. One lemma per shared operation that says everything it can do: the bounds-checked accesses,
raising a fault, the byte stack, the operand forms and the flag computations. -/

namespace Sys2Proof.Machine

/-! ### Bounds-checked accesses (R52, R53) -/

@[simp] theorem State.inMemory_iff (s : State) (a : Word) : s.inMemory a = true ↔ a.toNat < s.config.memSize := by
  simp [State.inMemory]

theorem State.memRead_eq_some_iff {s : State} {a : Word} {v : Byte} :
    s.memRead a = some v ↔ a.toNat < s.config.memSize ∧ v = Memory.read s.mem a.toNat := by
  by_cases h : a.toNat < s.config.memSize
  · simp only [State.memRead, State.inMemory, h, decide_true, if_true, Option.some.injEq, true_and]
    exact eq_comm
  · simp [State.memRead, State.inMemory, h]

theorem State.memRead_eq_none_iff {s : State} {a : Word} :
    s.memRead a = none ↔ s.config.memSize ≤ a.toNat := by
  by_cases h : a.toNat < s.config.memSize
  · simp [State.memRead, State.inMemory, h]
  · simp [State.memRead, State.inMemory, h, Nat.le_of_not_lt h]

theorem State.memWrite_eq_some_iff {s t : State} {a : Word} {v : Byte} :
    s.memWrite a v = some t ↔
      a.toNat < s.config.memSize ∧ t = s.setMem (Memory.write s.mem a.toNat v) := by
  by_cases h : a.toNat < s.config.memSize
  · simp only [State.memWrite, State.inMemory, h, decide_true, if_true, Option.some.injEq, true_and]
    exact eq_comm
  · simp [State.memWrite, State.inMemory, h]

theorem State.memWrite_eq_none_iff {s : State} {a : Word} {v : Byte} :
    s.memWrite a v = none ↔ s.config.memSize ≤ a.toNat := by
  by_cases h : a.toNat < s.config.memSize
  · simp [State.memWrite, State.inMemory, h]
  · simp [State.memWrite, State.inMemory, h, Nat.le_of_not_lt h]

/-! ### Faults (R184, R185) -/

theorem State.raise_eq (s : State) (k : FaultKind) : s.raise k = .next (s.setRunState (.faulted k)) := rfl

/-- An instruction that ends in memory accesses answers what they give, or the fault at the state it began in. -/
theorem State.orMemoryFault_eq_next_iff {s t : State} {r : Option State} :
    s.orMemoryFault r = .next t ↔ r = some t ∨ (r = none ∧ t = s.setRunState (.faulted .memoryFault)) := by
  cases r <;> simp [State.orMemoryFault, State.raise, eq_comm]

/-! ### The byte stack (R27, R28, R160, R161) -/

/-- The address of a push, without a wrap. -/
theorem sp_pred_toNat {a : Word} (h : 1 ≤ a.toNat) : (a - 1).toNat = a.toNat - 1 := by
  bv_omega

/-- A push address below memory wraps to 0xFFFF, which is never below `MEM_SIZE` (R160). -/
theorem sp_pred_toNat_zero {a : Word} (h : a.toNat = 0) : (a - 1).toNat = 65535 := by
  bv_omega

/-- Where a pop leaves `sp`, while it is below the top of memory. -/
theorem sp_succ_toNat {a : Word} (h : a.toNat < 65535) : (a + 1).toNat = a.toNat + 1 := by
  bv_omega

theorem State.pushByte_eq_some_iff {s t : State} {v : Byte} :
    s.pushByte v = some t ↔
      (s.sp - 1).toNat < s.config.memSize ∧
        t = (s.setMem (Memory.write s.mem (s.sp - 1).toNat v)).setSp (s.sp - 1) := by
  simp only [State.pushByte, Option.map_eq_some_iff, State.memWrite_eq_some_iff]
  constructor
  · rintro ⟨u, ⟨h, rfl⟩, rfl⟩; exact ⟨h, rfl⟩
  · rintro ⟨h, rfl⟩; exact ⟨_, ⟨h, rfl⟩, rfl⟩

theorem State.pushByte_eq_none_iff {s : State} {v : Byte} :
    s.pushByte v = none ↔ s.config.memSize ≤ (s.sp - 1).toNat := by
  simp [State.pushByte, State.memWrite_eq_none_iff]

/-- A push with room on the stack. -/
theorem State.pushByte_of_room {s : State} (v : Byte) (h1 : 1 ≤ s.sp.toNat)
    (h2 : s.sp.toNat ≤ s.config.memSize) :
    s.pushByte v = some ((s.setMem (Memory.write s.mem (s.sp.toNat - 1) v)).setSp (s.sp - 1)) := by
  rw [State.pushByte_eq_some_iff, sp_pred_toNat h1]
  exact ⟨by omega, rfl⟩

/-- A push on a stack that has filled memory fails. -/
theorem State.pushByte_full {s : State} (v : Byte) (h : s.sp.toNat = 0) : s.pushByte v = none := by
  rw [State.pushByte_eq_none_iff, sp_pred_toNat_zero h]
  exact s.config.memSize_le

theorem State.popByte_eq_some_iff {s t : State} {v : Byte} :
    s.popByte = some (v, t) ↔
      s.sp.toNat < s.config.memSize ∧ v = Memory.read s.mem s.sp.toNat ∧ t = s.setSp (s.sp + 1) := by
  simp only [State.popByte, Option.map_eq_some_iff, State.memRead_eq_some_iff, Prod.mk.injEq]
  constructor
  · rintro ⟨w, ⟨h, rfl⟩, rfl, rfl⟩; exact ⟨h, rfl, rfl⟩
  · rintro ⟨h, rfl, rfl⟩; exact ⟨_, ⟨h, rfl⟩, rfl, rfl⟩

theorem State.popByte_eq_none_iff {s : State} : s.popByte = none ↔ s.config.memSize ≤ s.sp.toNat := by
  simp [State.popByte, State.memRead_eq_none_iff]

/-! ### Operand forms (R94, R97) -/

@[simp] theorem State.withData_none {s : State} {o : Operands}
    {k : Byte → Host.Outcome State Fault Refusal} (h : o.data = none) : s.withData o k = .next s := by
  simp [State.withData, h]

@[simp] theorem State.withData_some {s : State} {o : Operands} {d : Byte}
    {k : Byte → Host.Outcome State Fault Refusal} (h : o.data = some d) : s.withData o k = k d := by
  simp [State.withData, h]

@[simp] theorem zext16_toNat (b : Byte) : (zext16 b).toNat = b.toNat := by
  have := b.isLt
  simp only [zext16, BitVec.toNat_setWidth]
  omega

/-! ### Flag computations (R32 to R34) -/

theorem zeroOf_iff (r : Word) : zeroOf r = true ↔ r.toNat = 0 := by
  rw [zeroOf, beq_iff_eq, BitVec.toNat_eq]; rfl

theorem negativeOf_iff (r : Word) : negativeOf r = true ↔ 0x8000 ≤ r.toNat := by
  simp only [negativeOf, decide_eq_true_eq]; omega

theorem coAdd_iff (old r : Word) : coAdd old r = true ↔ r.toNat < old.toNat := by simp [coAdd]

theorem coSub_iff (old r : Word) : coSub old r = true ↔ old.toNat < r.toNat := by simp [coSub]

/-! ### The bytes of a return address (R155, R156) -/

@[simp] theorem wordOfBytes_high_low (v : Word) : wordOfBytes (highByte v) (lowByte v) = v := by
  apply BitVec.eq_of_toNat_eq
  have := v.isLt
  simp only [wordOfBytes, highByte, lowByte, BitVec.toNat_append, BitVec.extractLsb'_toNat, Nat.shiftRight_zero]
  rw [Nat.shiftLeft_eq, ← Nat.shiftLeft_eq, ← Nat.shiftLeft_add_eq_or_of_lt (Nat.mod_lt _ (by decide))]
  simp only [Nat.shiftLeft_eq, Nat.shiftRight_eq_div_pow]
  omega

theorem wordOfBytes_toNat (hi lo : Byte) : (wordOfBytes hi lo).toNat = hi.toNat * 256 + lo.toNat := by
  simp only [wordOfBytes, BitVec.toNat_append]
  rw [← Nat.shiftLeft_add_eq_or_of_lt lo.isLt, Nat.shiftLeft_eq]

end Sys2Proof.Machine
end

