-- ==== Sys2Proof/Laws/Cycle.lean ====
section
/-! SUPPORT. The lemmas of the cycle: what the decoder can read at `pc`, and what a step answers in each run
state (60_exceptions.md rules R170 to R173). -/

namespace Sys2Proof.Machine

/-! ### Fetching (R54, R87) -/

theorem State.bytesFrom_of_ge (s : State) {a : Nat} (n : Nat) (h : s.config.memSize ≤ a) :
    s.bytesFrom a n = [] := by
  cases n with
  | zero => rfl
  | succ n => simp [State.bytesFrom, h]

theorem State.bytesFrom_of_lt (s : State) {a : Nat} (n : Nat) (h : a < s.config.memSize) :
    s.bytesFrom a (n + 1) = Memory.read s.mem a :: s.bytesFrom (a + 1) n := by
  simp [State.bytesFrom, h]

/-- How many bytes can be read: up to `n`, ending at `MEM_SIZE`. -/
theorem State.length_bytesFrom (s : State) (a n : Nat) :
    (s.bytesFrom a n).length = min n (s.config.memSize - a) := by
  induction n generalizing a with
  | zero => simp [State.bytesFrom]
  | succ n ih =>
    by_cases h : a < s.config.memSize
    · rw [State.bytesFrom_of_lt s n h, List.length_cons, ih]; omega
    · rw [State.bytesFrom_of_ge s _ (by omega), List.length_nil]; omega

/-- Byte `k` of what can be read is the byte of memory at `a + k`. -/
theorem State.getElem_bytesFrom (s : State) (a n k : Nat) (h : k < (s.bytesFrom a n).length) :
    (s.bytesFrom a n)[k] = Memory.read s.mem (a + k) := by
  induction n generalizing a k with
  | zero => simp [State.bytesFrom] at h
  | succ n ih =>
    by_cases ha : a < s.config.memSize
    · simp only [State.bytesFrom_of_lt s n ha] at h ⊢
      cases k with
      | zero => rfl
      | succ k =>
        simp only [List.length_cons, Nat.add_lt_add_iff_right] at h
        simp only [List.getElem_cons_succ, ih (a + 1) k h]
        congr 1; omega
    · simp [State.bytesFrom_of_ge s (n + 1) (by omega : s.config.memSize ≤ a)] at h

/-- `pc` advances without a wrap while it stays at or below `MEM_SIZE` (R25). -/
theorem advancePc_toNat {s : State} {n : Nat} (h : s.pc.toNat + n ≤ s.config.memSize) :
    (s.advancePc n).pc.toNat = s.pc.toNat + n := by
  have := s.config.memSize_le
  simp only [State.advancePc, State.setPc_pc, BitVec.toNat_add, BitVec.toNat_ofNat]
  omega

/-- What `withFetchWord` stores is what the next step fetches, when the three bytes lie in memory (log entry 26). -/
theorem State.fetchBytes_withFetchWord (s : State) (nbits w : Nat) (h : s.pc.toNat + 3 ≤ s.config.memSize) :
    (s.withFetchWord nbits w).fetchBytes = tableWordBytes nbits w := by
  have hlen : (tableWordBytes nbits w).length = 3 := rfl
  have htake : (tableWordBytes nbits w).take (s.config.memSize - s.pc.toNat) = tableWordBytes nbits w := by
    rw [List.take_of_length_le]; omega
  have hl : ((s.withFetchWord nbits w).fetchBytes).length = 3 := by
    refine (State.length_bytesFrom (s.withFetchWord nbits w) s.pc.toNat 3).trans ?_
    show min 3 (s.config.memSize - s.pc.toNat) = 3
    omega
  refine List.ext_getElem (hl.trans hlen.symm) fun k h1 h2 => ?_
  refine (State.getElem_bytesFrom (s.withFetchWord nbits w) s.pc.toNat 3 k h1).trans ?_
  show Memory.read (Memory.writeBytes s.mem s.pc.toNat _) (s.pc.toNat + k) = _
  rw [htake, Memory.read_writeBytes, if_pos (by omega)]
  simp [h2]

/-! ### The end of a cycle (R39, R170) -/

theorem State.isFaulted_iff {s : State} : s.isFaulted = true ↔ ∃ k, s.runState = .faulted k := by
  cases h : s.runState <;> simp [State.isFaulted, h]

theorem State.retire_of_faulted {t : State} (i : Instr) (h : t.isFaulted = true) : t.retire i = t := by
  simp [State.retire, h]

theorem State.retire_of_not_faulted {t : State} (i : Instr) (h : t.isFaulted = false) :
    t.retire i = t.setLast (some i) := by
  simp [State.retire, h]

/-! ### A step (R170, R172, R173) -/

theorem step_of_running {s : State} (h : s.runState = .running) :
    step s = s.afterDecode (decode s.fetchBytes) := by
  simp [step, cycle, h]

theorem step_of_ended {s : State} (h : s.runState ≠ .running) : step s = .next s := by
  cases hr : s.runState <;> simp_all [step, cycle]

/-- A step of a running core decodes and executes, or raises the decode fault. -/
theorem step_cases {s t : State} (h : step s = .next t) :
    (s.runState ≠ .running ∧ t = s) ∨
    (s.runState = .running ∧ ∃ k n, decode s.fetchBytes = .fault k n ∧
      t = (s.advancePc n).setRunState (.faulted k)) ∨
    (s.runState = .running ∧ ∃ i n u, decode s.fetchBytes = .ok i n ∧
      exec i (s.advancePc n) = .next u ∧ t = u.retire i) := by
  by_cases hr : s.runState = .running
  · rw [step_of_running hr] at h
    cases hd : decode s.fetchBytes with
    | fault k n =>
      rw [hd] at h
      simp only [State.afterDecode, State.raise, Host.Outcome.next.injEq] at h
      exact .inr (.inl ⟨hr, k, n, rfl, h.symm⟩)
    | ok i n =>
      rw [hd] at h
      simp only [State.afterDecode] at h
      cases he : exec i (s.advancePc n) with
      | next u =>
        rw [he] at h
        simp only [retireOutcome, Host.Outcome.next.injEq] at h
        exact .inr (.inr ⟨hr, i, n, u, rfl, he, h.symm⟩)
      | fault f => exact nomatch f
      | refused f => rw [he] at h; simp [retireOutcome] at h
  · rw [step_of_ended hr] at h
    exact .inl ⟨hr, (Host.Outcome.next.inj h).symm⟩

end Sys2Proof.Machine
end

