-- ==== Sys2Proof/Laws/PerInstr.lean ====
section
/-! SUPPORT. The statements made per constructor of Instr (LAWS.json). `OpcodeRow`: an instruction's opcode
byte resolves to the operation that rebuilds it from its operand fields (30_encoding.md rule R90). -/

namespace Sys2Proof.Laws.OpcodeRow

/-- The opcode byte of `i` is a row of the opcode table, and that row is `i`'s own. -/
def Statement (i : Instr) : Prop := ∃ mk, decodeOpcode (opcodeOf i) = some mk ∧ mk i.operands = i

theorem load (o : Operands) : Statement (.load o) := ⟨_, rfl, rfl⟩
theorem store (o : Operands) : Statement (.store o) := ⟨_, rfl, rfl⟩
theorem mov (o : Operands) : Statement (.mov o) := ⟨_, rfl, rfl⟩
theorem swap (o : Operands) : Statement (.swap o) := ⟨_, rfl, rfl⟩
theorem add (o : Operands) : Statement (.add o) := ⟨_, rfl, rfl⟩
theorem sub (o : Operands) : Statement (.sub o) := ⟨_, rfl, rfl⟩
theorem mul (o : Operands) : Statement (.mul o) := ⟨_, rfl, rfl⟩
theorem div (o : Operands) : Statement (.div o) := ⟨_, rfl, rfl⟩
theorem inc (o : Operands) : Statement (.inc o) := ⟨_, rfl, rfl⟩
theorem dec (o : Operands) : Statement (.dec o) := ⟨_, rfl, rfl⟩
theorem and (o : Operands) : Statement (.and o) := ⟨_, rfl, rfl⟩
theorem or (o : Operands) : Statement (.or o) := ⟨_, rfl, rfl⟩
theorem xor (o : Operands) : Statement (.xor o) := ⟨_, rfl, rfl⟩
theorem not (o : Operands) : Statement (.not o) := ⟨_, rfl, rfl⟩
theorem shl (o : Operands) : Statement (.shl o) := ⟨_, rfl, rfl⟩
theorem shr (o : Operands) : Statement (.shr o) := ⟨_, rfl, rfl⟩
theorem jmp (o : Operands) : Statement (.jmp o) := ⟨_, rfl, rfl⟩
theorem jz (o : Operands) : Statement (.jz o) := ⟨_, rfl, rfl⟩
theorem jnz (o : Operands) : Statement (.jnz o) := ⟨_, rfl, rfl⟩
theorem jc (o : Operands) : Statement (.jc o) := ⟨_, rfl, rfl⟩
theorem call (o : Operands) : Statement (.call o) := ⟨_, rfl, rfl⟩
theorem ret (o : Operands) : Statement (.ret o) := ⟨_, rfl, rfl⟩
theorem push (o : Operands) : Statement (.push o) := ⟨_, rfl, rfl⟩
theorem pop (o : Operands) : Statement (.pop o) := ⟨_, rfl, rfl⟩
theorem nop (o : Operands) : Statement (.nop o) := ⟨_, rfl, rfl⟩
theorem halt (o : Operands) : Statement (.halt o) := ⟨_, rfl, rfl⟩

end Sys2Proof.Laws.OpcodeRow
end

