-- ==== Sys2Proof/Laws/Decode.lean ====
section
/-! SUPPORT. The small lemmas of the decoder and the encoder: the opcode table in both directions, the
fields of the operand byte in both directions, and what `decode` can answer. -/

namespace Sys2Proof

/-! ### The opcode table (R90, R91) -/

/-- No two rows of the table have the same opcode byte. -/
theorem opcodeRows_distinct : (opcodeRows.map OpcodeRow.code).Pairwise (· ≠ ·) := by decide

/-- Every row's operation encodes to the row's byte and keeps the operand fields. -/
theorem opcodeRows_sound (row : OpcodeRow) (h : row ∈ opcodeRows) (o : Operands) :
    opcodeOf (row.instr o) = row.code ∧ (row.instr o).operands = o := by
  simp only [opcodeRows, dataMovementRows, arithmeticRows, logicRows, controlFlowRows, stackAndSystemRows,
    List.cons_append, List.nil_append, List.mem_cons, List.not_mem_nil, or_false] at h
  rcases h with rfl | rfl | rfl | rfl | rfl | rfl | rfl | rfl | rfl | rfl | rfl | rfl | rfl | rfl | rfl | rfl |
    rfl | rfl | rfl | rfl | rfl | rfl | rfl | rfl | rfl | rfl <;> exact ⟨rfl, rfl⟩

/-- What an opcode byte resolves to has that byte as its opcode and keeps the operand fields. -/
theorem decodeOpcode_sound {b : Byte} {mk : Operands → Instr} (h : decodeOpcode b = some mk) (o : Operands) :
    opcodeOf (mk o) = b ∧ (mk o).operands = o := by
  obtain ⟨row, hrow, rfl⟩ := Option.map_eq_some_iff.mp h
  obtain ⟨hc, ho⟩ := opcodeRows_sound row (List.mem_of_find?_eq_some hrow) o
  have hb : row.code = b := by simpa using List.find?_some hrow
  exact ⟨hc.trans hb, ho⟩

/-! ### The operand byte (R82, R85) -/

@[simp] theorem operandMode_operandByte (o : Operands) : operandMode (operandByte o) = o.mode := by
  obtain ⟨m, a, b, d⟩ := o
  revert a b
  cases m <;> simp only [operandByte] <;> decide

@[simp] theorem operandReg1_operandByte (o : Operands) : operandReg1 (operandByte o) = o.reg1 := by
  obtain ⟨m, a, b, d⟩ := o
  revert a b
  cases m <;> simp only [operandByte] <;> decide

@[simp] theorem operandReg2_operandByte (o : Operands) : operandReg2 (operandByte o) = o.reg2 := by
  obtain ⟨m, a, b, d⟩ := o
  revert a b
  cases m <;> simp only [operandByte] <;> decide

/-- The fields read from an operand byte give the byte back. -/
@[simp] theorem operandByte_operandsOf (ob : Byte) (d : Option Byte) : operandByte (operandsOf ob d) = ob := by
  have h : ∀ b : BitVec 8, operandByte (operandsOf b none) = b := by decide
  exact h ob

/-- The operand fields are recovered from their operand byte and data byte. -/
@[simp] theorem operandsOf_operandByte (o : Operands) : operandsOf (operandByte o) o.data = o := by
  simp [operandsOf]

/-! ### What decoding answers (R87) -/

/-- Steps 6 and 7 in modes 1 and 2. -/
theorem decodeData_of_noData {op ob : Byte} (rest : List Byte) (h : (operandMode ob).hasData = false) :
    decodeData op ob rest = resolveOpcode op (operandsOf ob none) 2 := by
  simp [decodeData, h]

/-- Steps 6 and 7 in modes 0 and 3, the data byte present. -/
theorem decodeData_of_data {op ob d : Byte} (rest : List Byte) (h : (operandMode ob).hasData = true) :
    decodeData op ob (d :: rest) = resolveOpcode op (operandsOf ob (some d)) 3 := by
  simp [decodeData, h]

/-- Step 6 in modes 0 and 3, the data byte outside memory. -/
theorem decodeData_of_missing {op ob : Byte} (h : (operandMode ob).hasData = true) :
    decodeData op ob [] = .fault .missingDataByte 2 := by
  simp [decodeData, h]

theorem resolveOpcode_eq_ok_iff {op : Byte} {o : Operands} {n m : Nat} {i : Instr} :
    resolveOpcode op o n = .ok i m ↔ ∃ mk, decodeOpcode op = some mk ∧ mk o = i ∧ n = m := by
  cases h : decodeOpcode op <;> simp [resolveOpcode, h]

theorem resolveOpcode_eq_fault_iff {op : Byte} {o : Operands} {n m : Nat} {k : FaultKind} :
    resolveOpcode op o n = .fault k m ↔ decodeOpcode op = none ∧ .invalidOpcode = k ∧ n = m := by
  cases h : decodeOpcode op <;> simp [resolveOpcode, h]

/-- A successful decode has read an opcode byte of the table, an operand byte with both registers
addressable, and a data byte exactly when the mode has one. -/
theorem decode_eq_ok_iff {bytes : List Byte} {i : Instr} {n : Nat} :
    decode bytes = .ok i n ↔
      ∃ op ob rest mk, bytes = op :: ob :: rest ∧ decodeOpcode op = some mk ∧
        RegIdx.addressable (operandReg1 ob) = true ∧ RegIdx.addressable (operandReg2 ob) = true ∧
        (((operandMode ob).hasData = true ∧ ∃ d rest', rest = d :: rest' ∧ i = mk (operandsOf ob (some d)) ∧ n = 3) ∨
          ((operandMode ob).hasData = false ∧ i = mk (operandsOf ob none) ∧ n = 2)) := by
  constructor
  · intro h
    match bytes, h with
    | op :: ob :: rest, h =>
      rw [decode] at h
      split at h
      · rename_i hreg
        obtain ⟨h1, h2⟩ := Bool.and_eq_true_iff.mp hreg
        unfold decodeData at h
        split at h
        · rename_i hd
          cases rest with
          | nil => simp at h
          | cons d rest' =>
            obtain ⟨mk, hmk, rfl, rfl⟩ := resolveOpcode_eq_ok_iff.mp h
            exact ⟨op, ob, _, mk, rfl, hmk, h1, h2, .inl ⟨hd, d, rest', rfl, rfl, rfl⟩⟩
        · rename_i hd
          obtain ⟨mk, hmk, rfl, rfl⟩ := resolveOpcode_eq_ok_iff.mp h
          exact ⟨op, ob, _, mk, rfl, hmk, h1, h2, .inr ⟨by simpa using hd, rfl, rfl⟩⟩
      · simp at h
  · rintro ⟨op, ob, rest, mk, rfl, hmk, h1, h2, ⟨hd, d, rest', rfl, rfl, rfl⟩ | ⟨hd, rfl, rfl⟩⟩ <;>
      simp [decode, decodeData, h1, h2, hd, resolveOpcode, hmk]

/-- Bytes beyond the third are never looked at. -/
theorem decode_take (bytes : List Byte) : decode (bytes.take maxInstrLength) = decode bytes := by
  match bytes with
  | [] => rfl
  | [_] => rfl
  | [_, _] => rfl
  | _ :: _ :: _ :: _ => rfl

end Sys2Proof
end

