-- ==== Sys2Proof/Laws/Exec.lean ====
section
/-! SUPPORT. Said once: what executing an instruction can write. `exec_effect` is the inversion lemma of
`exec`: whatever it answers, the next state has one of the shapes of `Effect`. Frames and invariants follow
by cases on it; the values an instruction computes follow from its own meaning. -/

namespace Sys2Proof.Machine

/-- The shapes of the next state of an instruction `i` executed at `s`, with the checks that guard them. -/
inductive Effect (i : Instr) (s : State) : State → Prop
  /-- NOP, a jump not taken, or a data-requiring instruction without data. -/
  | unchanged : Effect i s s
  /-- An execute fault, with nothing else written (R180, R181, R185). -/
  | faulted (k : FaultKind)
      (hk : (k = .memoryFault ∧ ∃ o, i = .store o ∨ i = .push o ∨ i = .pop o ∨ i = .call o ∨ i = .ret o) ∨
        (k = .divideByZero ∧ ∃ o, i = .div o ∧ o.data = some 0)) :
      Effect i s (s.setRunState (.faulted k))
  /-- LOAD, MOV. -/
  | loaded (r : Word) (hi : i = .load i.operands ∨ i = .mov i.operands) :
      Effect i s (s.writeLoaded i.operands.reg1 r)
  /-- STORE. -/
  | stored (o : Operands) (d : Byte) (hi : i = .store o) (ha : (s.getReg o.reg1).toNat < s.config.memSize) :
      Effect i s (s.setMem (Memory.write s.mem (s.getReg o.reg1).toNat d))
  /-- SWAP. -/
  | swapped (o : Operands) (hi : i = .swap o) :
      Effect i s ((s.setReg o.reg1 (s.getReg o.reg2)).setReg o.reg2 (s.getReg o.reg1))
  /-- ADD, INC. -/
  | addType (r : Word) (hi : i = .add i.operands ∨ i = .inc i.operands) :
      Effect i s (s.writeAddType i.operands.reg1 r)
  /-- SUB, MUL, DIV, DEC. -/
  | subType (r : Word)
      (hi : i = .sub i.operands ∨ i = .mul i.operands ∨ i = .div i.operands ∨ i = .dec i.operands) :
      Effect i s (s.writeSubType i.operands.reg1 r)
  /-- AND, OR, XOR, NOT, SHL, SHR. -/
  | logic (r : Word)
      (hi : i = .and i.operands ∨ i = .or i.operands ∨ i = .xor i.operands ∨ i = .not i.operands ∨
        i = .shl i.operands ∨ i = .shr i.operands) :
      Effect i s (s.writeLogic i.operands.reg1 r)
  /-- JMP, or JZ, JNZ, JC taken. -/
  | jumped (o : Operands) (p : Word) (hi : i = .jmp o ∨ i = .jz o ∨ i = .jnz o ∨ i = .jc o) :
      Effect i s (s.setPc p)
  /-- CALL. -/
  | called (o : Operands) (lo hi : Byte) (p : Word) (h : i = .call o)
      (h1 : (s.sp - 1).toNat < s.config.memSize) (h2 : (s.sp - 2).toNat < s.config.memSize) :
      Effect i s (((s.setMem (Memory.write (Memory.write s.mem (s.sp - 1).toNat lo) (s.sp - 2).toNat hi)).setSp
        (s.sp - 2)).setPc p)
  /-- RET. -/
  | returned (o : Operands) (p : Word) (hi : i = .ret o) (h1 : s.sp.toNat < s.config.memSize)
      (h2 : (s.sp + 1).toNat < s.config.memSize) : Effect i s ((s.setSp (s.sp + 2)).setPc p)
  /-- PUSH. -/
  | pushed (o : Operands) (d : Byte) (hi : i = .push o) (ha : (s.sp - 1).toNat < s.config.memSize) :
      Effect i s ((s.setMem (Memory.write s.mem (s.sp - 1).toNat d)).setSp (s.sp - 1))
  /-- POP. -/
  | popped (o : Operands) (r : Word) (hi : i = .pop o) (ha : s.sp.toNat < s.config.memSize) :
      Effect i s ((s.setSp (s.sp + 1)).writeLoaded o.reg1 r)
  /-- HALT. -/
  | halted (o : Operands) (hi : i = .halt o) : Effect i s (s.setRunState .halted)

/-- The two cases of a data-requiring instruction that answers a next state (R97). -/
theorem withData_eq_next {s t : State} {o : Operands} {k : Byte → Host.Outcome State Fault Refusal}
    (h : s.withData o k = .next t) : (o.data = none ∧ t = s) ∨ ∃ d, o.data = some d ∧ k d = .next t := by
  cases hd : o.data with
  | none =>
    rw [State.withData_none hd] at h
    exact .inl ⟨rfl, (Host.Outcome.next.inj h).symm⟩
  | some d =>
    rw [State.withData_some hd] at h
    exact .inr ⟨d, rfl, h⟩

/-- CALL's two pushes when both addresses are inside memory (R155). -/
theorem State.pushByte_twice {s : State} (lo hi : Byte) (h1 : (s.sp - 1).toNat < s.config.memSize)
    (h2 : (s.sp - 2).toNat < s.config.memSize) :
    ((s.pushByte lo).bind fun t => t.pushByte hi) =
      some ((s.setMem (Memory.write (Memory.write s.mem (s.sp - 1).toNat lo) (s.sp - 2).toNat hi)).setSp
        (s.sp - 2)) := by
  have e : s.sp - 1 - 1 = s.sp - 2 := by bv_omega
  rw [State.pushByte_eq_some_iff.mpr ⟨h1, rfl⟩, Option.bind_some, State.pushByte_eq_some_iff]
  simp only [State.setSp_sp, e]
  exact ⟨h2, rfl⟩

/-- CALL's two pushes fail together. -/
theorem State.pushByte_twice_none {s : State} (lo hi : Byte)
    (h : s.config.memSize ≤ (s.sp - 1).toNat ∨ s.config.memSize ≤ (s.sp - 2).toNat) :
    ((s.pushByte lo).bind fun t => t.pushByte hi) = none := by
  have e : s.sp - 1 - 1 = s.sp - 2 := by bv_omega
  by_cases h1 : s.config.memSize ≤ (s.sp - 1).toNat
  · simp [State.pushByte_eq_none_iff.mpr h1]
  · rw [State.pushByte_eq_some_iff.mpr ⟨Nat.lt_of_not_le h1, rfl⟩, Option.bind_some, State.pushByte_eq_none_iff]
    simp only [State.setSp_sp, e]
    exact h.resolve_left h1

/-- The two-push and two-pop instructions. -/
theorem execCall_effect {o : Operands} {s t : State} (h : execCall o s = .next t) : Effect (.call o) s t := by
  obtain ⟨-, rfl⟩ | ⟨d, -, h⟩ := withData_eq_next h
  · exact .unchanged
  · obtain h | ⟨-, rfl⟩ := State.orMemoryFault_eq_next_iff.mp h
    · obtain ⟨u, hu, rfl⟩ := Option.map_eq_some_iff.mp h
      by_cases hb : (s.sp - 1).toNat < s.config.memSize ∧ (s.sp - 2).toNat < s.config.memSize
      · rw [State.pushByte_twice _ _ hb.1 hb.2] at hu
        cases hu
        exact .called o _ _ _ rfl hb.1 hb.2
      · rw [State.pushByte_twice_none _ _ (by omega)] at hu
        cases hu
    · exact .faulted _ (.inl ⟨rfl, o, by simp⟩)

theorem execRet_effect {o : Operands} {s t : State} (h : execRet o s = .next t) : Effect (.ret o) s t := by
  obtain h | ⟨-, rfl⟩ := State.orMemoryFault_eq_next_iff.mp h
  · obtain ⟨⟨hi, u⟩, hu, h⟩ := Option.bind_eq_some_iff.mp h
    obtain ⟨⟨lo, v⟩, hv, rfl⟩ := Option.map_eq_some_iff.mp h
    obtain ⟨h1, rfl, rfl⟩ := State.popByte_eq_some_iff.mp hu
    obtain ⟨h2, rfl, rfl⟩ := State.popByte_eq_some_iff.mp hv
    have e : s.sp + 1 + 1 = s.sp + 2 := by bv_omega
    have := Effect.returned (s := s) o (wordOfBytes (Memory.read s.mem s.sp.toNat)
      (Memory.read s.mem (s.sp + 1).toNat)) rfl h1 h2
    rw [← e] at this
    exact this
  · exact .faulted _ (.inl ⟨rfl, o, by simp⟩)

/-- The one-byte memory instructions. -/
theorem execStore_effect {o : Operands} {s t : State} (h : execStore o s = .next t) : Effect (.store o) s t := by
  obtain ⟨-, rfl⟩ | ⟨d, -, h⟩ := withData_eq_next h
  · exact .unchanged
  · obtain h | ⟨-, rfl⟩ := State.orMemoryFault_eq_next_iff.mp h
    · obtain ⟨ha, rfl⟩ := State.memWrite_eq_some_iff.mp h
      exact .stored o d rfl ha
    · exact .faulted _ (.inl ⟨rfl, o, by simp⟩)

theorem execPush_effect {o : Operands} {s t : State} (h : execPush o s = .next t) : Effect (.push o) s t := by
  obtain ⟨-, rfl⟩ | ⟨d, -, h⟩ := withData_eq_next h
  · exact .unchanged
  · obtain h | ⟨-, rfl⟩ := State.orMemoryFault_eq_next_iff.mp h
    · obtain ⟨ha, rfl⟩ := State.pushByte_eq_some_iff.mp h
      exact .pushed o d rfl ha
    · exact .faulted _ (.inl ⟨rfl, o, by simp⟩)

theorem execPop_effect {o : Operands} {s t : State} (h : execPop o s = .next t) : Effect (.pop o) s t := by
  obtain h | ⟨-, rfl⟩ := State.orMemoryFault_eq_next_iff.mp h
  · obtain ⟨⟨v, u⟩, hu, rfl⟩ := Option.map_eq_some_iff.mp h
    obtain ⟨ha, rfl, rfl⟩ := State.popByte_eq_some_iff.mp hu
    exact .popped o _ rfl ha
  · exact .faulted _ (.inl ⟨rfl, o, by simp⟩)

theorem execDiv_effect {o : Operands} {s t : State} (h : execDiv o s = .next t) : Effect (.div o) s t := by
  obtain ⟨-, rfl⟩ | ⟨d, hd, h⟩ := withData_eq_next h
  · exact .unchanged
  · split at h <;> rename_i hz <;> cases h
    · exact .faulted _ (.inr ⟨rfl, o, rfl, hz ▸ hd⟩)
    · exact .subType _ (by simp [Instr.operands])

/-- The conditional jumps. -/
theorem execJz_effect {o : Operands} {s t : State} (h : execJz o s = .next t) : Effect (.jz o) s t := by
  obtain ⟨-, rfl⟩ | ⟨d, -, h⟩ := withData_eq_next h
  · exact .unchanged
  · split at h <;> cases h
    · exact .jumped o _ (by simp)
    · exact .unchanged

theorem execJnz_effect {o : Operands} {s t : State} (h : execJnz o s = .next t) : Effect (.jnz o) s t := by
  obtain ⟨-, rfl⟩ | ⟨d, -, h⟩ := withData_eq_next h
  · exact .unchanged
  · split at h <;> cases h
    · exact .unchanged
    · exact .jumped o _ (by simp)

theorem execJc_effect {o : Operands} {s t : State} (h : execJc o s = .next t) : Effect (.jc o) s t := by
  obtain ⟨-, rfl⟩ | ⟨d, -, h⟩ := withData_eq_next h
  · exact .unchanged
  · split at h <;> cases h
    · exact .jumped o _ (by simp)
    · exact .unchanged

/-- Whatever an instruction answers, its next state has one of the shapes of `Effect`. -/
theorem exec_effect {i : Instr} {s t : State} (h : exec i s = .next t) : Effect i s t := by
  cases i with
  | store o => exact execStore_effect h
  | div o => exact execDiv_effect h
  | jz o => exact execJz_effect h
  | jnz o => exact execJnz_effect h
  | jc o => exact execJc_effect h
  | call o => exact execCall_effect h
  | ret o => exact execRet_effect h
  | push o => exact execPush_effect h
  | pop o => exact execPop_effect h
  | nop o => cases h; exact .unchanged
  | halt o => cases h; exact .halted o rfl
  | swap o => cases h; exact .swapped o rfl
  | inc o => cases h; exact .addType _ (by simp [Instr.operands])
  | dec o => cases h; exact .subType _ (by simp [Instr.operands])
  | not o => cases h; exact .logic _ (by simp [Instr.operands])
  | load o | mov o =>
    obtain ⟨-, rfl⟩ | ⟨d, -, h⟩ := withData_eq_next h
    · exact .unchanged
    · cases h; exact .loaded _ (by simp [Instr.operands])
  | add o =>
    obtain ⟨-, rfl⟩ | ⟨d, -, h⟩ := withData_eq_next h
    · exact .unchanged
    · cases h; exact .addType _ (by simp [Instr.operands])
  | sub o | mul o =>
    obtain ⟨-, rfl⟩ | ⟨d, -, h⟩ := withData_eq_next h
    · exact .unchanged
    · cases h; exact .subType _ (by simp [Instr.operands])
  | and o | or o | xor o | shl o | shr o =>
    obtain ⟨-, rfl⟩ | ⟨d, -, h⟩ := withData_eq_next h
    · exact .unchanged
    · cases h; exact .logic _ (by simp [Instr.operands])
  | jmp o =>
    obtain ⟨-, rfl⟩ | ⟨d, -, h⟩ := withData_eq_next h
    · exact .unchanged
    · cases h; exact .jumped o _ (by simp)

/-- No instruction writes the configuration, `bp` or `last`. -/
theorem Effect.frame {i : Instr} {s t : State} (h : Effect i s t) :
    t.config = s.config ∧ t.bp = s.bp ∧ t.last = s.last := by
  cases h <;> exact ⟨rfl, rfl, rfl⟩

end Sys2Proof.Machine
end

