-- ==== Sys2Proof/Tests/Slice0.lean ====
section
/-! SUPPORT. Tests of the model and witnesses for its statements. Words and expected values are written out from
spec/30_encoding.md and from the vectors of spec/95_test_vectors.md, whose names (V-M1, …) stand in the
docstrings; none was taken from the model. -/

namespace Sys2Proof.Tests

open Sys2Proof Sys2Proof.Machine

/-! ### Helpers -/

/-- The core of the vectors' conventions: 256 bytes, the image at address 0, zero fill. -/
def start (image : List Byte) : State := State.construct Config.default image

/-- A core of another size. -/
def sized (n : Nat) (image : List Byte) (h1 : 1 ≤ n := by decide) (h2 : n ≤ 65535 := by decide) : State :=
  State.construct { memSize := n, memSize_pos := h1, memSize_le := h2 } image

/-- The state after one step. A step that answered no next state would give a core that has run nothing. -/
def after (s : State) : State :=
  match step s with
  | .next t => t
  | .fault _ => State.reset
  | .refused _ => State.reset

/-- A flag register without `interrupt`. -/
def flagsOf (zero negative carry overflow : Bool) : Flags :=
  { zero := zero, negative := negative, carry := carry, overflow := overflow, interrupt := false }

/-- Operands in the four modes, two with and two without a data byte. -/
def immOps : Operands := ⟨.immediate, 1, 2, some 0xFF⟩
def memOps : Operands := ⟨.memory, 6, 5, some 0x00⟩
def regOps : Operands := ⟨.register, 1, 2, none⟩
def indOps : Operands := ⟨.indirect, 4, 3, none⟩

/-! ### Well-formedness: each check refuses an ill-formed term (R86) -/

theorem test_wf_accepts_the_four_modes :
    (Instr.add immOps).wf = true ∧ (Instr.add memOps).wf = true ∧ (Instr.add regOps).wf = true ∧
    (Instr.add indOps).wf = true := by decide

theorem test_wf_refuses_reg1_seven : (Instr.load ⟨.immediate, 7, 0, some 1⟩).wf = false := by decide

theorem test_wf_refuses_reg2_seven : (Instr.nop ⟨.register, 0, 7, none⟩).wf = false := by decide

theorem test_wf_refuses_immediate_without_data : (Instr.load ⟨.immediate, 0, 0, none⟩).wf = false := by decide

theorem test_wf_refuses_memory_without_data : (Instr.push ⟨.memory, 0, 0, none⟩).wf = false := by decide

theorem test_wf_refuses_register_with_data : (Instr.swap ⟨.register, 0, 1, some 2⟩).wf = false := by decide

theorem test_wf_refuses_indirect_with_data : (Instr.ret ⟨.indirect, 0, 0, some 2⟩).wf = false := by decide

/-! ### Decoding: every constructor, its word written out bit by bit (R82, R90) -/

theorem test_decode_data_movement :
    decode [0b00000000, 0b00110000, 0b11111111] = .ok (.load ⟨.immediate, 6, 0, some 0xFF⟩) 3 ∧
    decode [0b00000001, 0b00101000, 0b00000000] = .ok (.store ⟨.immediate, 5, 0, some 0⟩) 3 ∧
    decode [0b00000010, 0b01001010] = .ok (.mov ⟨.register, 1, 2, none⟩) 2 ∧
    decode [0b00000011, 0b01000110] = .ok (.swap ⟨.register, 0, 6, none⟩) 2 := by decide

theorem test_decode_arithmetic :
    decode [0b00010000, 0b00001000, 0b00100000] = .ok (.add ⟨.immediate, 1, 0, some 0x20⟩) 3 ∧
    decode [0b00010001, 0b11010011, 0b00000101] = .ok (.sub ⟨.memory, 2, 3, some 5⟩) 3 ∧
    decode [0b00010010, 0b10101100] = .ok (.mul ⟨.indirect, 5, 4, none⟩) 2 ∧
    decode [0b00010011, 0b00010000, 0b00000111] = .ok (.div ⟨.immediate, 2, 0, some 7⟩) 3 ∧
    decode [0b00010100, 0b01011000] = .ok (.inc ⟨.register, 3, 0, none⟩) 2 ∧
    decode [0b00010101, 0b11110000, 0b00001001] = .ok (.dec ⟨.memory, 6, 0, some 9⟩) 3 := by decide

theorem test_decode_logic :
    decode [0b00100000, 0b00000000, 0b00001111] = .ok (.and ⟨.immediate, 0, 0, some 0x0F⟩) 3 ∧
    decode [0b00100001, 0b00001001, 0b00000001] = .ok (.or ⟨.immediate, 1, 1, some 1⟩) 3 ∧
    decode [0b00100010, 0b11010110, 0b11111111] = .ok (.xor ⟨.memory, 2, 6, some 0xFF⟩) 3 ∧
    decode [0b00100011, 0b01000000] = .ok (.not ⟨.register, 0, 0, none⟩) 2 ∧
    decode [0b00100100, 0b11110101, 0b00001100] = .ok (.shl ⟨.memory, 6, 5, some 0x0C⟩) 3 ∧
    decode [0b00100101, 0b10001100] = .ok (.shr ⟨.indirect, 1, 4, none⟩) 2 := by decide

theorem test_decode_control_flow :
    decode [0b00110000, 0b11011100, 0b00100000] = .ok (.jmp ⟨.memory, 3, 4, some 0x20⟩) 3 ∧
    decode [0b00110001, 0b01000000] = .ok (.jz ⟨.register, 0, 0, none⟩) 2 ∧
    decode [0b00110010, 0b00000000, 0b00000011] = .ok (.jnz ⟨.immediate, 0, 0, some 3⟩) 3 ∧
    decode [0b00110011, 0b10110110] = .ok (.jc ⟨.indirect, 6, 6, none⟩) 2 ∧
    decode [0b00110100, 0b00000000, 0b00001000] = .ok (.call ⟨.immediate, 0, 0, some 8⟩) 3 ∧
    decode [0b00110101, 0b00000000, 0b01110111] = .ok (.ret ⟨.immediate, 0, 0, some 0x77⟩) 3 := by decide

theorem test_decode_stack_and_system :
    decode [0b01000000, 0b00000000, 0b00000111] = .ok (.push ⟨.immediate, 0, 0, some 7⟩) 3 ∧
    decode [0b01000001, 0b10100011] = .ok (.pop ⟨.indirect, 4, 3, none⟩) 2 ∧
    decode [0b01110000, 0b11110110, 0b11111111] = .ok (.nop ⟨.memory, 6, 6, some 0xFF⟩) 3 ∧
    decode [0b01111111, 0b10001010] = .ok (.halt ⟨.indirect, 1, 2, none⟩) 2 := by decide

/-- V-E1, V-E3, V-E4: the encoder gives back the bytes. -/
theorem test_encode_vectors :
    encode (.add ⟨.immediate, 1, 0, some 0x20⟩) = [0x10, 0x08, 0x20] ∧
    encode (.shl ⟨.memory, 6, 5, some 0x0C⟩) = [0x24, 0xF5, 0x0C] ∧
    encode (.pop ⟨.indirect, 4, 3, none⟩) = [0x41, 0xA3] := by decide

/-- The numbering of spec/opcode_table.json: byte 0 in the low bits. -/
theorem test_decodeTableWord :
    decodeTableWord 24 0x2008_10 = some (.add ⟨.immediate, 1, 0, some 0x20⟩) ∧
    decodeTableWord 16 0xFF_4A03 = some (.swap ⟨.register, 1, 2, none⟩) ∧
    decodeTableWord 16 0x0000 = some (.load ⟨.immediate, 0, 0, some 0⟩) ∧
    decodeTableWord 16 0x0099 = none := by decide

/-- `CALL 8`, placed where the first step fetches, runs as the first instruction after reset (V-J13). -/
theorem test_withFetchWord_runs :
    (after (State.reset.withFetchWord 24 0x080034)).pc = 8 ∧
    (after (State.reset.withFetchWord 24 0x080034)).sp = 0xFE := by decide

/-! ### One step of each instruction (95_test_vectors.md section 2) -/

/-- V-M2, V-M7. -/
theorem test_load_zero_extends :
    (after (start [0x00, 0x30, 0xFF])).getReg 6 = 0x00FF ∧ (after (start [0x00, 0x30, 0xFF])).pc = 3 := by decide

theorem test_load_writes_zero_flag_only :
    (after ((start [0x00, 0x00, 0x00]).setFlags (flagsOf false true true true))).flags =
      flagsOf true true true true := by decide

/-- V-M8, V-M10. -/
theorem test_mov_writes_immediate : (after ((start [0x02, 0x18, 0x00]).setReg 3 7)).getReg 3 = 0 := by decide

theorem test_mov_is_no_register_copy :
    (after ((start [0x02, 0x4A]).setReg 2 0x1234)).getReg 1 = 0 ∧
    (after ((start [0x02, 0x4A]).setReg 2 0x1234)).pc = 2 := by decide

/-- V-M12, V-M14. -/
theorem test_store_last_cell :
    Memory.read (after ((start [0x01, 0x00, 0xAB]).setReg 0 0xFF)).mem 0xFF = 0xAB := by decide

theorem test_store_uses_whole_address :
    (after ((start [0x01, 0x00, 0xAB]).setReg 0 0x1080)).runState = .faulted .memoryFault ∧
    Memory.read (after ((start [0x01, 0x00, 0xAB]).setReg 0 0x1080)).mem 0x80 = 0 := by decide

/-- V-M17, V-M19. -/
theorem test_swap_exchanges :
    (after (((start [0x03, 0x4A]).setReg 1 0x1234).setReg 2 0x00FF)).getReg 1 = 0x00FF ∧
    (after (((start [0x03, 0x4A]).setReg 1 0x1234).setReg 2 0x00FF)).getReg 2 = 0x1234 := by decide

theorem test_swap_ignores_data_and_flags :
    (after ((start [0x03, 0x0A, 0x55]).setReg 2 0xFFFF)).getReg 1 = 0xFFFF ∧
    (after ((start [0x03, 0x0A, 0x55]).setReg 2 0xFFFF)).flags = flagsOf false false false false := by decide

/-- V-A1, V-A3. -/
theorem test_add_wraps :
    (after ((start [0x10, 0x08, 0x20]).setReg 1 0xFFF0)).getReg 1 = 0x0010 ∧
    (after ((start [0x10, 0x08, 0x20]).setReg 1 0xFFF0)).flags = flagsOf false false true true := by decide

theorem test_add_reports_no_signed_overflow :
    (after ((start [0x10, 0x00, 0x01]).setReg 0 0x7FFF)).flags = flagsOf false true false false := by decide

/-- V-A9, V-A10. -/
theorem test_sub_borrows :
    (after (start [0x11, 0x00, 0x01])).getReg 0 = 0xFFFF ∧
    (after (start [0x11, 0x00, 0x01])).flags = flagsOf false true true true := by decide

theorem test_sub_reports_no_signed_overflow :
    (after ((start [0x11, 0x00, 0x01]).setReg 0 0x8000)).flags = flagsOf false false false false := by decide

/-- V-A14, V-A16. -/
theorem test_mul_heuristic_true_without_overflow :
    (after ((start [0x12, 0x00, 0x03]).setReg 0 2)).flags = flagsOf false false true true := by decide

theorem test_mul_heuristic_false_on_wrap :
    (after ((start [0x12, 0x00, 0x02]).setReg 0 0xFFFF)).getReg 0 = 0xFFFE ∧
    (after ((start [0x12, 0x00, 0x02]).setReg 0 0xFFFF)).flags = flagsOf false true false false := by decide

/-- V-A21, V-A24. -/
theorem test_div_is_unsigned : (after ((start [0x13, 0x00, 0x02]).setReg 0 0xFFFE)).getReg 0 = 0x7FFF := by decide

theorem test_div_by_zero_faults :
    (after ((start [0x13, 0x00, 0x00]).setReg 0 9)).runState = .faulted .divideByZero ∧
    (after ((start [0x13, 0x00, 0x00]).setReg 0 9)).getReg 0 = 9 := by decide

/-- V-A27, V-A29. -/
theorem test_inc_wraps :
    (after ((start [0x14, 0x58]).setReg 3 0xFFFF)).getReg 3 = 0 ∧
    (after ((start [0x14, 0x58]).setReg 3 0xFFFF)).flags = flagsOf true false true true := by decide

theorem test_inc_adds_one_not_data : (after ((start [0x14, 0x00, 0x05]).setReg 0 0x10)).getReg 0 = 0x11 := by decide

/-- V-A31, V-A32. -/
theorem test_dec_wraps :
    (after (start [0x15, 0x40])).getReg 0 = 0xFFFF ∧
    (after (start [0x15, 0x40])).flags = flagsOf false true true true := by decide

theorem test_dec_to_zero :
    (after ((start [0x15, 0x40]).setReg 0 1)).flags = flagsOf true false false false := by decide

/-- V-L1, V-L3. -/
theorem test_and_clears_upper_byte : (after ((start [0x20, 0x00, 0x0F]).setReg 0 0x1234)).getReg 0 = 4 := by decide

theorem test_and_keeps_carry :
    (after (((start [0x20, 0x00, 0xFF]).setReg 0 0xFFFF).setFlags (flagsOf false false true true))).flags =
      flagsOf false false true true := by decide

/-- V-L5, V-L7. -/
theorem test_or_keeps_negative :
    (after ((start [0x21, 0x00, 0x01]).setReg 0 0x8000)).flags = flagsOf false true false false := by decide

theorem test_or_keeps_upper_byte : (after ((start [0x21, 0x00, 0xFF]).setReg 0 0x1200)).getReg 0 = 0x12FF := by decide

/-- V-L8, V-L9. -/
theorem test_xor_to_zero :
    (after ((start [0x22, 0x00, 0xFF]).setReg 0 0x00FF)).flags = flagsOf true false false false := by decide

theorem test_xor_flips_low_byte : (after ((start [0x22, 0x00, 0xFF]).setReg 0 0xFFFF)).getReg 0 = 0xFF00 := by decide

/-- V-L12, V-L13. -/
theorem test_not_ignores_data : (after ((start [0x23, 0x08, 0xAA]).setReg 1 0x00FF)).getReg 1 = 0xFF00 := by decide

theorem test_not_keeps_carry :
    (after (((start [0x23, 0x40]).setReg 0 0x7FFF).setFlags (flagsOf false false true false))).flags =
      flagsOf false true true false := by decide

/-- V-L15, V-L17. -/
theorem test_shl_loses_top_bit :
    (after ((start [0x24, 0x00, 0x01]).setReg 0 0x8001)).getReg 0 = 2 ∧
    (after ((start [0x24, 0x00, 0x01]).setReg 0 0x8001)).flags = flagsOf false false false false := by decide

theorem test_shl_by_sixteen : (after ((start [0x24, 0x00, 0x10]).setReg 0 0xFFFF)).getReg 0 = 0 := by decide

/-- V-L22, V-L25. -/
theorem test_shr_is_logical : (after ((start [0x25, 0x00, 0x01]).setReg 0 0x8000)).getReg 0 = 0x4000 := by decide

theorem test_shr_by_seventeen : (after ((start [0x25, 0x00, 0x11]).setReg 0 0xFFFF)).getReg 0 = 0 := by decide

/-- V-J2, V-J4. -/
theorem test_jmp_highest_target : (after (start [0x30, 0x00, 0xFF])).pc = 0xFF := by decide

theorem test_jmp_without_data : (after ((start [0x30, 0x40]).setReg 0 0x50)).pc = 2 := by decide

/-- V-J6, V-J7. -/
theorem test_jz_taken :
    (after ((start [0x31, 0x00, 0x10]).setFlags (flagsOf true false false false))).pc = 0x10 := by decide

theorem test_jz_not_taken : (after (start [0x31, 0x00, 0x10])).pc = 3 := by decide

/-- V-J8, V-J9. -/
theorem test_jnz_taken : (after (start [0x32, 0x00, 0x10])).pc = 0x10 := by decide

theorem test_jnz_not_taken :
    (after ((start [0x32, 0x00, 0x10]).setFlags (flagsOf true false false false))).pc = 3 := by decide

/-- V-J10, V-J11. -/
theorem test_jc_taken :
    (after ((start [0x33, 0x00, 0x10]).setFlags (flagsOf false false true false))).pc = 0x10 := by decide

theorem test_jc_does_not_read_overflow :
    (after ((start [0x33, 0x00, 0x10]).setFlags (flagsOf false false false true))).pc = 3 := by decide

/-- V-J16, V-J18. -/
theorem test_call_frame_at_the_bottom :
    Memory.read (after ((start [0x34, 0x00, 0x08]).setSp 2)).mem 0 = 0 ∧
    Memory.read (after ((start [0x34, 0x00, 0x08]).setSp 2)).mem 1 = 3 ∧
    (after ((start [0x34, 0x00, 0x08]).setSp 2)).sp = 0 := by decide

theorem test_call_high_byte_lies_lower :
    let t := after (((sized 1024 []).setPc 0x200).withFetchWord 24 0x800034)
    Memory.read t.mem 0x3FE = 2 ∧ Memory.read t.mem 0x3FF = 3 ∧ t.sp = 0x3FE ∧ t.pc = 0x80 := by decide

/-- V-J22, V-J24. -/
theorem test_ret_with_one_byte_faults :
    (after ((start [0x35, 0x40]).setSp 0xFF)).runState = .faulted .memoryFault ∧
    (after ((start [0x35, 0x40]).setSp 0xFF)).sp = 0xFF ∧ (after ((start [0x35, 0x40]).setSp 0xFF)).pc = 2 := by decide

theorem test_ret_reads_high_byte_first :
    let s := (start [0x35, 0x40]).setSp 0xFE
    (after (s.setMem (Memory.write (Memory.write s.mem 0xFE 2) 0xFF 3))).pc = 0x203 := by decide

/-- V-K1, V-K3. -/
theorem test_push_first_byte :
    Memory.read (after (start [0x40, 0x00, 0x07])).mem 0xFF = 7 ∧ (after (start [0x40, 0x00, 0x07])).sp = 0xFF := by
  decide

theorem test_push_on_full_stack_faults :
    (after ((start [0x40, 0x00, 0x07]).setSp 0)).runState = .faulted .memoryFault ∧
    (after ((start [0x40, 0x00, 0x07]).setSp 0)).sp = 0 := by decide

/-- V-K7, V-K11. -/
theorem test_pop_writes_zero_flag :
    (after (((start [0x41, 0x50]).setSp 0xFF).setReg 2 0xABCD)).getReg 2 = 0 ∧
    (after (((start [0x41, 0x50]).setSp 0xFF).setReg 2 0xABCD)).flags = flagsOf true false false false := by decide

theorem test_pop_reads_code :
    (after ((start [0x41, 0x40]).setSp 0)).getReg 0 = 0x41 ∧ (after ((start [0x41, 0x40]).setSp 0)).sp = 1 := by decide

/-- V-Y1, V-Y3. -/
theorem test_nop_two_bytes : (after (start [0x70, 0x40])).pc = 2 := by decide

theorem test_nop_keeps_flags :
    let f : Flags := ⟨true, true, true, true, true⟩
    (after ((start [0x70, 0xF6, 0xFF]).setFlags f)).pc = 3 ∧
    (after ((start [0x70, 0xF6, 0xFF]).setFlags f)).flags = f := by decide

/-- V-Y4; a further step leaves a halted core as it is. -/
theorem test_halt : (after (start [0x7F, 0x40])).runState = .halted ∧ (after (start [0x7F, 0x40])).pc = 2 := by decide

theorem test_halted_stays : after (after (start [0x7F, 0x40])) = after (start [0x7F, 0x40]) := by decide

/-- `last` after a fault-free cycle, and after a faulting one (R170). -/
theorem test_last_is_recorded :
    (after (start [0x70, 0x40])).last = some (.nop ⟨.register, 0, 0, none⟩) ∧
    (after (start [0x13, 0x00, 0x00])).last = none := by decide

/-! ### The decode faults (95_test_vectors.md section 3.2) -/

/-- V-F1, V-F2. -/
theorem test_invalid_opcode :
    (after (start [0x99, 0x40])).runState = .faulted .invalidOpcode ∧ (after (start [0x99, 0x40])).pc = 2 ∧
    (after (start [0x99, 0x00])).runState = .faulted .invalidOpcode ∧ (after (start [0x99, 0x00])).pc = 3 := by decide

/-- V-F8, V-F11, V-F14. -/
theorem test_invalid_register_number :
    (after (start [0x99, 0x78])).runState = .faulted .invalidRegisterNumber ∧
    (after (start [0x7F, 0xC7])).runState = .faulted .invalidRegisterNumber ∧
    (after (sized 2 [0x00, 0xC7])).runState = .faulted .invalidRegisterNumber ∧
    (after (sized 2 [0x00, 0xC7])).pc = 2 := by decide

/-- V-F12, V-F13. -/
theorem test_missing_bytes :
    (after (sized 1 [0x70])).runState = .faulted .missingOperandByte ∧ (after (sized 1 [0x70])).pc = 1 ∧
    (after (sized 2 [0x99, 0x00])).runState = .faulted .missingDataByte ∧ (after (sized 2 [0x99, 0x00])).pc = 2 := by
  decide

/-- V-F18, V-F19. -/
theorem test_program_counter_out_of_bounds :
    (after ((start []).setPc 0x100)).runState = .faulted .programCounterOutOfBounds ∧
    (after ((start []).setPc 0xFFFF)).pc = 0xFFFF := by decide

/-! ### Witnesses: for each statement with hypotheses, states and operands that meet them, one for each clause and
at the boundaries of its ranges. A statement whose only hypothesis is a data byte, or its absence, is met by
`immOps` and `memOps`, or by `regOps` and `indOps`. -/

theorem witness_data_byte_present_or_absent :
    immOps.data = some 0xFF ∧ memOps.data = some 0x00 ∧ regOps.data = none ∧ indOps.data = none := by decide

theorem witness_LoadAndMovWriteZeroExtendedByte :
    Instr.load ∈ [Instr.load, Instr.mov] ∧ Instr.mov ∈ [Instr.load, Instr.mov] ∧
    immOps.data = some 0xFF ∧ regOps.data = none := by
  refine ⟨by simp, by simp, ?_, ?_⟩ <;> decide

/-- The last cell, and the first address outside. -/
theorem witness_StoreWritesByteAtRegisterAddress :
    let s := (start []).setReg 1 0xFF
    let t := (start []).setReg 1 0x100
    immOps.data = some 0xFF ∧ (s.getReg immOps.reg1).toNat < s.config.memSize ∧
    t.config.memSize ≤ (t.getReg immOps.reg1).toNat ∧ regOps.data = none := by decide

theorem witness_AddWrapsModulo65536 : immOps.data = some 0xFF ∧ regOps.data = none := by decide

theorem witness_SubWrapsModulo65536 : memOps.data = some 0x00 ∧ indOps.data = none := by decide

theorem witness_MulKeepsLowHalf : immOps.data = some 0xFF ∧ regOps.data = none := by decide

/-- The smallest and the largest divisor, and 0. -/
theorem witness_DivWritesQuotientOrFaults :
    (1 : Byte).toNat ≠ 0 ∧ (0xFF : Byte).toNat ≠ 0 ∧ memOps.data = some 0 ∧ (0 : Byte).toNat = 0 ∧
    regOps.data = none := by decide

theorem witness_CarryMeaningPerArithmeticOpcode :
    immOps.data = some 0xFF ∧ (0xFF : Byte).toNat ≠ 0 ∧ memOps.data = some 0 := by decide

theorem witness_BitwiseImmediateOperations : immOps.data = some 0xFF ∧ regOps.data = none := by decide

theorem witness_ShiftsAreLogicalAndUnreduced :
    (⟨.immediate, 0, 0, some 16⟩ : Operands).data = some 16 ∧ immOps.data = some 0xFF ∧ indOps.data = none := by decide

theorem witness_JumpsWriteOnlyPc : immOps.data = some 0xFF ∧ regOps.data = none := by decide

/-- The lowest `sp` with room for two bytes, and the two without. -/
theorem witness_CallPushesReturnAddressAndJumps :
    let s := (start []).setSp 2
    let t := (start []).setSp 1
    let u := (start []).setSp 0
    immOps.data = some 0xFF ∧
    ((s.sp - 1).toNat < s.config.memSize ∧ (s.sp - 2).toNat < s.config.memSize) ∧
    (¬ t.config.memSize ≤ (t.sp - 1).toNat ∧ t.config.memSize ≤ (t.sp - 2).toNat) ∧
    u.config.memSize ≤ (u.sp - 1).toNat ∧ regOps.data = none := by decide

/-- Two bytes, one byte and none on the stack. -/
theorem witness_RetPopsReturnAddress :
    let s := (start []).setSp 254
    let t := (start []).setSp 255
    let u := (start []).setSp 256
    (s.sp.toNat < s.config.memSize ∧ (s.sp + 1).toNat < s.config.memSize) ∧
    (¬ t.config.memSize ≤ t.sp.toNat ∧ t.config.memSize ≤ (t.sp + 1).toNat) ∧
    u.config.memSize ≤ u.sp.toNat := by decide

/-- An empty stack, and a state in between that has moved on. -/
theorem witness_RetUndoesCall :
    let s := start []
    immOps.data = some 0xFF ∧ 2 ≤ s.sp.toNat ∧ s.sp.toNat ≤ s.config.memSize ∧
    ∃ t, exec (.call immOps) s = .next t ∧ ∃ w : State, w ≠ t ∧ w.config = t.config ∧ w.sp = t.sp ∧
      Memory.read w.mem t.sp.toNat = Memory.read t.mem t.sp.toNat ∧
      Memory.read w.mem (t.sp.toNat + 1) = Memory.read t.mem (t.sp.toNat + 1) := by
  refine ⟨by decide, by decide, by decide, _, rfl, (((start []).setSp 254).setReg 1 5), ?_, rfl, rfl, ?_, ?_⟩ <;>
    decide

/-- Room for one byte, and none. -/
theorem witness_PushStoresByteBelowSp :
    let s := (start []).setSp 1
    let t := (start []).setSp 0
    immOps.data = some 0xFF ∧ (s.sp - 1).toNat < s.config.memSize ∧ t.config.memSize ≤ (t.sp - 1).toNat ∧
    regOps.data = none := by decide

theorem witness_PopLoadsByteAtSp :
    let s := (start []).setSp 255
    let t := (start []).setSp 256
    s.sp.toNat < s.config.memSize ∧ t.config.memSize ≤ t.sp.toNat := by decide

theorem witness_PopUndoesPush :
    let s := (start []).setSp 1
    let t := start []
    immOps.data = some 0xFF ∧ (1 ≤ s.sp.toNat ∧ s.sp.toNat ≤ s.config.memSize) ∧
    1 ≤ t.sp.toNat ∧ t.sp.toNat = t.config.memSize := by decide

theorem witness_MissingDataIsNoOperation :
    Instr.load ∈ dataRequiring ∧ Instr.push ∈ dataRequiring ∧ regOps.data = none := by
  refine ⟨by simp [dataRequiring], by simp [dataRequiring], by decide⟩

theorem witness_ExecutionIgnoresUnusedFields :
    let o : Operands := ⟨.immediate, 1, 2, some 0xFF⟩
    let p : Operands := ⟨.memory, 1, 5, some 0xFF⟩
    let q : Operands := ⟨.register, 1, 2, none⟩
    let r : Operands := ⟨.memory, 6, 6, some 0xFF⟩
    (o.reg1 = p.reg1 ∧ o.data = p.data) ∧ o.data = r.data ∧ (o.reg1 = q.reg1 ∧ o.reg2 = q.reg2) ∧
    Instr.inc ∈ dataIgnoring ∧ ∀ x, Instr.inc x ≠ .swap x := by
  refine ⟨by decide, by decide, by decide, by simp [dataIgnoring], by simp⟩

theorem witness_DecodeOfEncode :
    (Instr.shl ⟨.memory, 6, 5, some 0x0C⟩).wf = true ∧ (Instr.load ⟨.indirect, 0, 0, none⟩).wf = true := by decide

theorem witness_EncodeOfDecode :
    decode [0x00, 0xB6, 0x99] = .ok (.load ⟨.indirect, 6, 6, none⟩) 2 ∧
    decode [0x7F, 0x00, 0x00] = .ok (.halt ⟨.immediate, 0, 0, some 0⟩) 3 := by decide

/-- Each mode, at the lowest and the highest register numbers. -/
theorem witness_DecodeReadsOperandByteFields :
    (0x00 : Byte) ∈ legalOpcodeBytes ∧ (0x7F : Byte) ∈ legalOpcodeBytes ∧
    (∀ ob ∈ [(0x00 : Byte), 0x76, 0xB6, 0xF6], ob.toNat / 8 % 8 < 7 ∧ ob.toNat % 8 < 7) ∧
    (0x76 : Byte).toNat / 64 = 1 ∧ (0xB6 : Byte).toNat / 64 = 2 ∧ (0x00 : Byte).toNat / 64 = 0 ∧
    (0xF6 : Byte).toNat / 64 = 3 := by decide

/-- The ends of the rule's seven ranges. -/
theorem witness_IllegalOpcodeBytesAreInvalid :
    (∀ b ∈ [(0x04 : Byte), 0x0F, 0x16, 0x1F, 0x26, 0x2F, 0x36, 0x3F, 0x42, 0x6F, 0x71, 0x7E, 0x80, 0xFF],
      b ∉ legalOpcodeBytes) ∧
    ∀ ob ∈ [(0x36 : Byte), 0x40, 0xB6, 0xC0], ob.toNat / 8 % 8 < 7 ∧ ob.toNat % 8 < 7 := by decide

/-- A decode fault, a fault-free execution and an execute fault. -/
theorem witness_StepRunsDecodedInstruction :
    let s := start [0x99, 0x40]
    let t := start [0x70, 0x40]
    let u := start [0x13, 0x00, 0x00]
    (s.runState = .running ∧ decode s.fetchBytes = .fault .invalidOpcode 2) ∧
    (t.runState = .running ∧ decode t.fetchBytes = .ok (.nop ⟨.register, 0, 0, none⟩) 2 ∧
      ∃ v, exec (.nop ⟨.register, 0, 0, none⟩) { t with pc := t.pc + BitVec.ofNat 16 2 } = .next v ∧
        ∀ k, v.runState ≠ .faulted k) ∧
    (u.runState = .running ∧ decode u.fetchBytes = .ok (.div ⟨.immediate, 0, 0, some 0⟩) 3 ∧
      ∃ v, exec (.div ⟨.immediate, 0, 0, some 0⟩) { u with pc := u.pc + BitVec.ofNat 16 3 } = .next v ∧
        ∃ k, v.runState = .faulted k) := by
  refine ⟨by decide, ⟨by decide, by decide, _, rfl, by intro k h; cases h⟩, by decide, by decide, _, rfl, _, rfl⟩

/-- An instruction that ends exactly at `MEM_SIZE`, fault-free and faulting. -/
theorem witness_StepRunsInstructionStoredAtPc :
    let i := Instr.load ⟨.immediate, 0, 0, some 1⟩
    let j := Instr.div ⟨.immediate, 0, 0, some 0⟩
    let s := sized 3 [0x00, 0x00, 0x01]
    let u := sized 3 [0x13, 0x00, 0x00]
    (i.wf = true ∧ s.runState = .running ∧ s.pc.toNat + (encode i).length = s.config.memSize ∧
      (∀ k (h : k < (encode i).length), Memory.read s.mem (s.pc.toNat + k) = (encode i)[k]) ∧
      ∃ v, exec i { s with pc := BitVec.ofNat 16 (s.pc.toNat + (encode i).length) } = .next v ∧
        ∀ k, v.runState ≠ .faulted k) ∧
    (j.wf = true ∧ u.runState = .running ∧ u.pc.toNat + (encode j).length = u.config.memSize ∧
      (∀ k (h : k < (encode j).length), Memory.read u.mem (u.pc.toNat + k) = (encode j)[k]) ∧
      ∃ v, exec j { u with pc := BitVec.ofNat 16 (u.pc.toNat + (encode j).length) } = .next v ∧
        ∃ k, v.runState = .faulted k) := by
  refine ⟨⟨by decide, by decide, by decide, by decide, _, rfl, by intro k h; cases h⟩,
    by decide, by decide, by decide, by decide, _, rfl, _, rfl⟩

/-- `pc` at `MEM_SIZE`, and the highest `pc`. -/
theorem witness_ProgramCounterOutOfBoundsAtFetch :
    let s := (start []).setPc 0x100
    let t := (start []).setPc 0xFFFF
    (s.runState = .running ∧ s.config.memSize ≤ s.pc.toNat) ∧
    t.runState = .running ∧ t.config.memSize ≤ t.pc.toNat := by
  refine ⟨⟨rfl, ?_⟩, rfl, ?_⟩
  · show 256 ≤ 256; decide
  · show 256 ≤ 65535; omega

theorem witness_MissingOperandByteAtFetch :
    let s := (start []).setPc 0xFF
    let t := sized 1 [0x70]
    (s.runState = .running ∧ s.pc.toNat + 1 = s.config.memSize) ∧
    t.runState = .running ∧ t.pc.toNat + 1 = t.config.memSize := by decide

/-- Each field, in a memory that ends with the operand byte. -/
theorem witness_InvalidRegisterNumberAtFetch :
    let s := sized 2 [0x99, 0xF8]
    let t := sized 2 [0x00, 0x07]
    (s.runState = .running ∧ s.pc.toNat + 1 < s.config.memSize ∧
      (Memory.read s.mem (s.pc.toNat + 1)).toNat / 8 % 8 = 7) ∧
    t.runState = .running ∧ t.pc.toNat + 1 < t.config.memSize ∧
      (Memory.read t.mem (t.pc.toNat + 1)).toNat % 8 = 7 := by decide

/-- Modes 0 and 3, register fields 6. -/
theorem witness_MissingDataByteAtFetch :
    ∀ ob ∈ [(0x36 : Byte), 0xC6],
      let s := sized 2 [0x99, ob]
      s.runState = .running ∧ s.pc.toNat + 2 = s.config.memSize ∧
      let b := (Memory.read s.mem (s.pc.toNat + 1)).toNat
      b / 8 % 8 ≠ 7 ∧ b % 8 ≠ 7 ∧ (b / 64 = 0 ∨ b / 64 = 3) := by decide

/-- Modes 1 and 2 in a memory of two bytes, modes 0 and 3 in one of three. -/
theorem witness_InvalidOpcodeAtFetch :
    (∀ ob ∈ [(0x76 : Byte), 0x80],
      let s := sized 2 [0x04, ob]
      s.runState = .running ∧ s.pc.toNat + 1 < s.config.memSize ∧
      Memory.read s.mem s.pc.toNat ∉ legalOpcodeBytes ∧
      let b := (Memory.read s.mem (s.pc.toNat + 1)).toNat
      b / 8 % 8 ≠ 7 ∧ b % 8 ≠ 7 ∧ (b / 64 = 1 ∨ b / 64 = 2)) ∧
    (∀ ob ∈ [(0x36 : Byte), 0xC0],
      let s := sized 3 [0xFF, ob, 0x00]
      s.runState = .running ∧ s.pc.toNat + 2 < s.config.memSize ∧
      Memory.read s.mem s.pc.toNat ∉ legalOpcodeBytes ∧
      let b := (Memory.read s.mem (s.pc.toNat + 1)).toNat
      b / 8 % 8 ≠ 7 ∧ b % 8 ≠ 7 ∧ (b / 64 = 0 ∨ b / 64 = 3)) := by decide

/-- Both sides of each equivalence: full and empty stacks, and STORE's last cell and first address outside. -/
theorem witness_MemoryFaultExactlyWhen :
    let s := ((start []).setSp 0).setReg 1 0xFF
    let t := (start []).setReg 1 0x100
    immOps.data = some 0xFF ∧
    (s.runState = .running ∧ s.sp.toNat = 0 ∧ (s.getReg immOps.reg1).toNat < s.config.memSize) ∧
    t.runState = .running ∧ t.sp.toNat = t.config.memSize ∧ t.config.memSize ≤ (t.getReg immOps.reg1).toNat := by
  decide

theorem witness_ExecuteFaultCommitsNothing :
    let s := (start []).setSp 0
    s.runState = .running ∧
    (∃ t, exec (.push immOps) s = .next t ∧ t.runState = .faulted .memoryFault) ∧
    ∃ t, exec (.div memOps) s = .next t ∧ t.runState = .faulted .divideByZero := by
  exact ⟨by decide, ⟨_, rfl, by decide⟩, _, rfl, by decide⟩

/-- A decode fault, HALT, a fault-free instruction and an execute fault. -/
theorem witness_RunStateMachine :
    (∀ image ∈ [[(0x99 : Byte), 0x40], [0x7F, 0x40], [0x70, 0x40], [0x13, 0x00, 0x00]],
      (start image).runState = .running ∧ ∃ t, step (start image) = .next t) ∧
    decode (start [0x99, 0x40]).fetchBytes = .fault .invalidOpcode 2 ∧
    decode (start [0x7F, 0x40]).fetchBytes = .ok (.halt ⟨.register, 0, 0, none⟩) 2 ∧
    decode (start [0x70, 0x40]).fetchBytes = .ok (.nop ⟨.register, 0, 0, none⟩) 2 := by
  refine ⟨?_, by decide, by decide, by decide⟩
  intro image h
  simp only [List.mem_cons, List.not_mem_nil, or_false] at h
  rcases h with rfl | rfl | rfl | rfl <;> exact ⟨by decide, _, rfl⟩

theorem witness_TerminalStatesStay :
    ((start []).setRunState .halted).Ended ∧ ((start []).setRunState (.faulted .divideByZero)).Ended :=
  ⟨by unfold State.Ended; decide, by unfold State.Ended; decide⟩

theorem witness_EndOfRunIsUnique :
    ∃ t u, runLoop 1 (start [0x7F, 0x40]) = .next t ∧ runLoop 2 (start [0x7F, 0x40]) = .next u ∧
      t.Ended ∧ u.Ended :=
  ⟨_, _, rfl, rfl, by unfold State.Ended; decide, by unfold State.Ended; decide⟩

/-- A state that is not the reset state: memory listed, the stack in use, an instruction recorded. -/
theorem witness_StepKeepsInvariant :
    let s := ((start [0x40, 0x00, 0x07]).setSp 1).setLast (some (.nop ⟨.register, 0, 0, none⟩))
    s.Inv ∧ ∃ t, step s = .next t := by
  refine ⟨⟨by decide, by decide, by decide, ?_⟩, _, rfl⟩
  intro i h
  cases h
  decide

theorem witness_ConstructLoadsImage :
    let config : Config := { memSize := 3 }
    [(0x00 : Byte), 0x00, 0x01].length = config.memSize := by decide

/-- The smallest memory. -/
theorem witness_FirstFetchIsAtAddressZero :
    let config : Config := { memSize := 1 }
    [(0x70 : Byte)].length = config.memSize := by decide

theorem witness_BasePointerIsNeverUsed :
    (∃ t, step (start [0x40, 0x00, 0x07]) = .next t) ∧
    ∃ t, runLoop 2 (State.construct { memSize := 2 } [0x70, 0x40]) = .next t := ⟨⟨_, rfl⟩, _, rfl⟩

theorem witness_InterruptFlagIsNeverUsed : ∃ t, step (start [0x11, 0x00, 0x01]) = .next t := ⟨_, rfl⟩

theorem witness_RegisterCellSevenIsNeverUsed : ∃ t, step (start [0x03, 0x76]) = .next t := ⟨_, rfl⟩

theorem witness_LastIsForInspectionOnly :
    let s := start [0x70, 0x40]
    s.runState = .running ∧ decode s.fetchBytes = .ok (.nop ⟨.register, 0, 0, none⟩) 2 ∧
    ∃ t, step s = .next t ∧ ∀ k, t.runState ≠ .faulted k :=
  ⟨by decide, by decide, _, rfl, by intro k h; cases h⟩

/-- An instruction that reads no flag; jumps with the flag they read kept; jumps with it changed. -/
theorem witness_OnlyConditionalJumpsReadFlags :
    let s := start []
    ((∀ o, Instr.add immOps ≠ .jz o) ∧ (∀ o, Instr.add immOps ≠ .jnz o) ∧ (∀ o, Instr.add immOps ≠ .jc o)) ∧
    (flagsOf false true true true).zero = s.flags.zero ∧ (flagsOf true true false true).carry = s.flags.carry ∧
    immOps.data = some 0xFF ∧ s.pc.toNat ≠ (0xFF : Byte).toNat ∧
    (flagsOf true false false false).zero ≠ s.flags.zero ∧ (flagsOf false false true false).carry ≠ s.flags.carry ∧
    (∃ t, exec (.jz immOps) s = .next t) ∧ (∃ t, exec (.jnz immOps) s = .next t) ∧
    (∃ t, exec (.jc immOps) s = .next t) ∧
    (∃ t, exec (.jz immOps) { s with flags := flagsOf true false false false } = .next t) ∧
    (∃ t, exec (.jnz immOps) { s with flags := flagsOf true false false false } = .next t) ∧
    ∃ t, exec (.jc immOps) { s with flags := flagsOf false false true false } = .next t := by
  refine ⟨⟨by simp, by simp, by simp⟩, by decide, by decide, by decide, by decide, by decide, by decide,
    ⟨_, rfl⟩, ⟨_, rfl⟩, ⟨_, rfl⟩, ⟨_, rfl⟩, ⟨_, rfl⟩, _, rfl⟩

/-- An instruction that changes four flags, and one that changes `zero` only. -/
theorem witness_FlagWritersAreTheListedOnes :
    let s := start []
    (∃ t, exec (.sub immOps) (s.setFlags (flagsOf true false false false)) = .next t ∧
      t.flags.zero ≠ true ∧ t.flags.negative ≠ false ∧ t.flags.carry ≠ false ∧ t.flags.overflow ≠ false) ∧
    ∃ t, exec (.load memOps) s = .next t ∧ t.flags.zero ≠ s.flags.zero := by
  exact ⟨⟨_, rfl, by decide⟩, _, rfl, by decide⟩

theorem witness_RegisterWritersAreTheListedOnes :
    let s := (start []).setReg 2 7
    (∃ t, exec (.load immOps) s = .next t ∧ t.getReg 1 ≠ s.getReg 1) ∧
    ∃ t, exec (.swap regOps) s = .next t ∧ t.getReg 1 ≠ s.getReg 1 ∧ t.getReg 2 ≠ s.getReg 2 := by
  exact ⟨⟨_, rfl, by decide⟩, _, rfl, by decide⟩

/-- A byte of STORE, of PUSH and each of CALL's two. -/
theorem witness_MemoryWritersAreTheListedOnes :
    let s := (start []).setPc 0x0102
    (∃ t, exec (.store immOps) s = .next t ∧ Memory.read t.mem 0 ≠ Memory.read s.mem 0) ∧
    (∃ t, exec (.push immOps) s = .next t ∧ Memory.read t.mem 255 ≠ Memory.read s.mem 255) ∧
    ∃ t, exec (.call immOps) s = .next t ∧ Memory.read t.mem 255 ≠ Memory.read s.mem 255 ∧
      Memory.read t.mem 254 ≠ Memory.read s.mem 254 := by
  exact ⟨⟨_, rfl, by decide⟩, ⟨_, rfl, by decide⟩, _, rfl, by decide⟩

theorem witness_OnlyStackInstructionsUseSp :
    (∀ o, Instr.store immOps ≠ .push o ∧ Instr.store immOps ≠ .pop o ∧ Instr.store immOps ≠ .call o ∧
      Instr.store immOps ≠ .ret o) ∧ ∃ t, exec (.store immOps) (start []) = .next t :=
  ⟨by simp, _, rfl⟩

/-- An instruction that ends exactly at `MEM_SIZE`. -/
theorem witness_SequentialPcAdvance :
    let s := sized 3 [0x10, 0x08, 0x20]
    let i := Instr.add ⟨.immediate, 1, 0, some 0x20⟩
    s.runState = .running ∧ decode s.fetchBytes = .ok i 3 ∧
    (∀ o, i ≠ .jmp o ∧ i ≠ .jz o ∧ i ≠ .jnz o ∧ i ≠ .jc o ∧ i ≠ .call o ∧ i ≠ .ret o) ∧
    ∃ t, step s = .next t :=
  ⟨by decide, by decide, by simp, _, rfl⟩

/-- V-M21: the byte stored is the opcode of the next instruction; and PUSH's is an instruction's third byte. -/
theorem witness_StoredByteIsFetched :
    let s := (start [0x01, 0x00, 0x7F, 0x70, 0x40]).setReg 1 3
    immOps.data = some 0xFF ∧ (s.getReg immOps.reg1).toNat < s.config.memSize ∧
    (3 : Word).toNat + 0 = (s.getReg immOps.reg1).toNat ∧
    (s.sp - 1).toNat < s.config.memSize ∧ (253 : Word).toNat + 2 = (s.sp - 1).toNat := by decide

end Sys2Proof.Tests
end

section
/-! PROOFS. Non-interference. A relation between two cores that every state operation respects
(`Congruence`) is respected by every instruction (`Congruence.exec`) and by every cycle (`Congruence.step`).
That some field is not read is one of these two theorems for the relation "equal but for that field". -/

namespace Sys2Proof.Machine

/-! ### Relations between the outcomes of two cores -/

/-- Both outcomes are next states, and `R` relates them. -/
def NextRelated (R : State → State → Prop) (x y : Host.Outcome State Fault Refusal) : Prop :=
  ∃ t u, x = .next t ∧ y = .next u ∧ R t u

theorem NextRelated.next {R : State → State → Prop} {t u : State} (h : R t u) :
    NextRelated R (.next t) (.next u) := ⟨t, u, rfl, rfl, h⟩

/-- A data-requiring instruction without a data byte leaves both cores as they are (R97). -/
theorem NextRelated.withData {R : State → State → Prop} {s t : State} {o : Operands}
    {k l : Byte → Host.Outcome State Fault Refusal} (h : R s t) (hk : ∀ d, NextRelated R (k d) (l d)) :
    NextRelated R (s.withData o k) (t.withData o l) := by
  cases hd : o.data with
  | none => rw [State.withData_none hd, State.withData_none hd]; exact .next h
  | some d => rw [State.withData_some hd, State.withData_some hd]; exact hk d

/-- The same choice in both cores. -/
theorem related_ite {R : State → State → Prop} (c : Bool) {s t s' t' : State} (h : R s t) (h' : R s' t') :
    R (if c then s else s') (if c then t else t') := by
  cases c with
  | true => exact h
  | false => exact h'

theorem optionRel_map {α β γ δ : Type} {r : α → β → Prop} {q : γ → δ → Prop} {x : Option α} {y : Option β}
    {f : α → γ} {g : β → δ} (h : Option.Rel r x y) (hfg : ∀ a b, r a b → q (f a) (g b)) :
    Option.Rel q (x.map f) (y.map g) := by
  cases h with
  | none => exact .none
  | some h => exact .some (hfg _ _ h)

theorem optionRel_bind {α β γ δ : Type} {r : α → β → Prop} {q : γ → δ → Prop} {x : Option α} {y : Option β}
    {f : α → Option γ} {g : β → Option δ} (h : Option.Rel r x y)
    (hfg : ∀ a b, r a b → Option.Rel q (f a) (g b)) : Option.Rel q (x.bind f) (y.bind g) := by
  cases h with
  | none => exact .none
  | some h => exact hfg _ _ h

/-! ### Congruences -/

/-- `R` relates cores that agree on all that instructions read, but for the flags and the registers outside
`vis`, and that stay related when an operation of the machine writes the same to both. -/
structure Congruence (vis : RegIdx → Prop) (R : State → State → Prop) : Prop where
  config {s t : State} : R s t → t.config = s.config
  pc {s t : State} : R s t → t.pc = s.pc
  sp {s t : State} : R s t → t.sp = s.sp
  mem {s t : State} : R s t → t.mem = s.mem
  runState {s t : State} : R s t → t.runState = s.runState
  getReg {s t : State} {j : RegIdx} : R s t → vis j → t.getReg j = s.getReg j
  setReg {s t : State} {j : RegIdx} (v : Word) : R s t → vis j → R (s.setReg j v) (t.setReg j v)
  setPc {s t : State} (v : Word) : R s t → R (s.setPc v) (t.setPc v)
  setSp {s t : State} (v : Word) : R s t → R (s.setSp v) (t.setSp v)
  setMem {s t : State} (m : Memory) : R s t → R (s.setMem m) (t.setMem m)
  setRunState {s t : State} (r : RunState) : R s t → R (s.setRunState r) (t.setRunState r)
  setLast {s t : State} (i : Option Instr) : R s t → R (s.setLast i) (t.setLast i)
  withZero {s t : State} (r : Word) : R s t →
    R (s.setFlags (s.flags.withZero r)) (t.setFlags (t.flags.withZero r))
  withLogic {s t : State} (r : Word) : R s t →
    R (s.setFlags (s.flags.withLogic r)) (t.setFlags (t.flags.withLogic r))
  withArith {s t : State} (r : Word) (co : Bool) : R s t →
    R (s.setFlags (s.flags.withArith r co)) (t.setFlags (t.flags.withArith r co))

namespace Congruence

section
variable {vis : RegIdx → Prop} {R : State → State → Prop} {s t : State} (hC : Congruence vis R) (hR : R s t)
include hC hR

/-! ### The shared operations keep a congruence -/

theorem raise (k : FaultKind) : NextRelated R (s.raise k) (t.raise k) := .next (hC.setRunState _ hR)

theorem orMemoryFault {x y : Option State} (h : Option.Rel R x y) :
    NextRelated R (s.orMemoryFault x) (t.orMemoryFault y) := by
  cases h with
  | none => exact hC.raise hR _
  | some h => exact .next h

theorem inMemory (a : Word) : t.inMemory a = s.inMemory a := by
  simp only [State.inMemory, hC.config hR]

theorem memWrite (a : Word) (v : Byte) : Option.Rel R (s.memWrite a v) (t.memWrite a v) := by
  simp only [State.memWrite, hC.inMemory hR, hC.mem hR]
  split
  · exact .some (hC.setMem _ hR)
  · exact .none

theorem memRead (a : Word) : t.memRead a = s.memRead a := by
  simp only [State.memRead, hC.inMemory hR, hC.mem hR]

theorem pushByte (v : Byte) : Option.Rel R (s.pushByte v) (t.pushByte v) := by
  simp only [State.pushByte, hC.sp hR]
  exact optionRel_map (hC.memWrite hR _ v) fun _ _ h => hC.setSp _ h

theorem popByte : Option.Rel (fun p q => q.1 = p.1 ∧ R p.2 q.2) s.popByte t.popByte := by
  simp only [State.popByte, hC.sp hR, hC.memRead hR]
  cases s.memRead s.sp with
  | none => exact .none
  | some v => exact .some ⟨rfl, hC.setSp _ hR⟩

theorem writeLoaded {a : RegIdx} (r : Word) (ha : vis a) : R (s.writeLoaded a r) (t.writeLoaded a r) :=
  hC.withZero r (hC.setReg r hR ha)

theorem writeLogic {a : RegIdx} {r r' : Word} (ha : vis a) (hr : r' = r) :
    R (s.writeLogic a r) (t.writeLogic a r') :=
  hr ▸ hC.withLogic r (hC.setReg r hR ha)

theorem writeAddType {a : RegIdx} {r r' : Word} (ha : vis a) (hr : r' = r) :
    R (s.writeAddType a r) (t.writeAddType a r') := by
  subst hr
  simp only [State.writeAddType, hC.getReg hR ha]
  exact hC.withArith r' _ (hC.setReg r' hR ha)

theorem writeSubType {a : RegIdx} {r r' : Word} (ha : vis a) (hr : r' = r) :
    R (s.writeSubType a r) (t.writeSubType a r') := by
  subst hr
  simp only [State.writeSubType, hC.getReg hR ha]
  exact hC.withArith r' _ (hC.setReg r' hR ha)

/-! ### Instructions -/

theorem execCall (o : Operands) : NextRelated R (execCall o s) (execCall o t) := by
  refine .withData hR fun d => hC.orMemoryFault hR ?_
  rw [hC.pc hR]
  exact optionRel_map (optionRel_bind (hC.pushByte hR _) fun _ _ h => hC.pushByte h _)
    fun _ _ h => hC.setPc _ h

theorem execRet (o : Operands) : NextRelated R (execRet o s) (execRet o t) := by
  refine hC.orMemoryFault hR (optionRel_bind (hC.popByte hR) ?_)
  rintro ⟨hi, u⟩ ⟨_, v⟩ ⟨rfl, huv⟩
  refine optionRel_map (hC.popByte huv) ?_
  rintro ⟨lo, u'⟩ ⟨_, v'⟩ ⟨rfl, huv'⟩
  exact hC.setPc _ huv'

theorem execPop {o : Operands} (ha : vis o.reg1) : NextRelated R (execPop o s) (execPop o t) := by
  refine hC.orMemoryFault hR (optionRel_map (hC.popByte hR) ?_)
  rintro ⟨b, u⟩ ⟨_, v⟩ ⟨rfl, huv⟩
  exact hC.writeLoaded huv _ ha

theorem execDiv {o : Operands} (ha : vis o.reg1) : NextRelated R (execDiv o s) (execDiv o t) := by
  refine .withData hR fun d => ?_
  by_cases hd : d = 0
  · rw [if_pos hd, if_pos hd]; exact hC.raise hR _
  · rw [if_neg hd, if_neg hd]; exact .next (hC.writeSubType hR ha (by rw [hC.getReg hR ha]))

/-- Every instruction keeps a congruence whose cores agree on the registers it names and, for a conditional
jump, on the flag it tests. -/
theorem exec {i : Instr} (h1 : vis i.operands.reg1) (h2 : vis i.operands.reg2)
    (hz : (∃ o, i = .jz o ∨ i = .jnz o) → t.flags.zero = s.flags.zero)
    (hc : (∃ o, i = .jc o) → t.flags.carry = s.flags.carry) : NextRelated R (exec i s) (exec i t) := by
  have e1 := hC.getReg hR h1
  have e2 := hC.getReg hR h2
  cases i <;> simp only [Instr.operands] at h1 h2 e1 e2
  case load | mov => exact .withData hR fun d => .next (hC.writeLoaded hR _ h1)
  case store => exact .withData hR fun d => hC.orMemoryFault hR (e1 ▸ hC.memWrite hR _ d)
  case swap o =>
    show NextRelated R (.next _) (.next _)
    rw [e1, e2]
    exact .next (hC.setReg _ (hC.setReg _ hR h1) h2)
  case add => exact .withData hR fun d => .next (hC.writeAddType hR h1 (by rw [e1]))
  case sub | mul => exact .withData hR fun d => .next (hC.writeSubType hR h1 (by rw [e1]))
  case div => exact hC.execDiv hR h1
  case inc => exact .next (hC.writeAddType hR h1 (by rw [e1]))
  case dec => exact .next (hC.writeSubType hR h1 (by rw [e1]))
  case and | or | xor | shl | shr => exact .withData hR fun d => .next (hC.writeLogic hR h1 (by rw [e1]))
  case not => exact .next (hC.writeLogic hR h1 (by rw [e1]))
  case jmp => exact .withData hR fun d => .next (hC.setPc _ hR)
  case jz o =>
    refine .withData hR fun d => .next ?_
    rw [hz ⟨o, .inl rfl⟩]
    exact related_ite _ (hC.setPc _ hR) hR
  case jnz o =>
    refine .withData hR fun d => .next ?_
    rw [hz ⟨o, .inr rfl⟩]
    exact related_ite _ hR (hC.setPc _ hR)
  case jc o =>
    refine .withData hR fun d => .next ?_
    rw [hc ⟨o, rfl⟩]
    exact related_ite _ (hC.setPc _ hR) hR
  case call o => exact hC.execCall hR o
  case ret o => exact hC.execRet hR o
  case push => exact .withData hR fun d => hC.orMemoryFault hR (hC.pushByte hR d)
  case pop => exact hC.execPop hR h1
  case nop => exact .next hR
  case halt => exact .next (hC.setRunState _ hR)

/-! ### Cycles -/

theorem bytesFrom (a n : Nat) : t.bytesFrom a n = s.bytesFrom a n := by
  induction n generalizing a with
  | zero => rfl
  | succ n ih => simp only [State.bytesFrom, hC.config hR, hC.mem hR, ih]

theorem fetchBytes : t.fetchBytes = s.fetchBytes := by
  rw [State.fetchBytes, hC.pc hR]; exact hC.bytesFrom hR _ _

theorem advancePc (n : Nat) : R (s.advancePc n) (t.advancePc n) := by
  rw [State.advancePc, State.advancePc, hC.pc hR]; exact hC.setPc _ hR

theorem retire (i : Instr) : R (s.retire i) (t.retire i) := by
  have hf : t.isFaulted = s.isFaulted := by rw [State.isFaulted, hC.runState hR]; rfl
  rw [State.retire, State.retire, hf]
  exact related_ite _ hR (hC.setLast _ hR)

end

end Congruence

/-- The decoder passes no register number 7 on (R88). -/
theorem decode_ok_addressable {bytes : List Byte} {i : Instr} {n : Nat} (h : decode bytes = .ok i n) :
    i.operands.reg1.addressable = true ∧ i.operands.reg2.addressable = true := by
  obtain ⟨op, ob, _, mk, -, hmk, h1, h2, ⟨-, d, _, -, rfl, -⟩ | ⟨-, rfl, -⟩⟩ := decode_eq_ok_iff.mp h <;>
    rw [(decodeOpcode_sound hmk _).2] <;> exact ⟨h1, h2⟩

/-- A cycle keeps a congruence whose cores agree on the addressable registers and on the two flags that
conditional jumps test. -/
theorem Congruence.step {vis : RegIdx → Prop} {R : State → State → Prop} {s t : State} (hC : Congruence vis R)
    (hvis : ∀ j : RegIdx, j.addressable = true → vis j) (hR : R s t) (hz : t.flags.zero = s.flags.zero)
    (hc : t.flags.carry = s.flags.carry) : NextRelated R (step s) (step t) := by
  by_cases hr : s.runState = .running
  · rw [step_of_running hr, step_of_running ((hC.runState hR).trans hr), hC.fetchBytes hR]
    cases hd : decode s.fetchBytes with
    | fault k n => exact hC.raise (hC.advancePc hR n) k
    | ok i n =>
      obtain ⟨h1, h2⟩ := decode_ok_addressable hd
      obtain ⟨u, v, hu, hv, huv⟩ :=
        hC.exec (hC.advancePc hR n) (hvis _ h1) (hvis _ h2) (fun _ => hz) (fun _ => hc)
      rw [State.afterDecode, State.afterDecode, hu, hv]
      exact .next (hC.retire huv i)
  · rw [step_of_ended hr, step_of_ended (hC.runState hR ▸ hr)]
    exact .next hR

/-! ### Runs -/

/-- What every step keeps, a run of any length keeps (R171). -/
theorem runLoop_keeps {P : State → Prop} (hP : ∀ s t, step s = .next t → P s → P t) {n : Nat} {s t : State}
    (h : runLoop n s = .next t) (hs : P s) : P t := by
  induction n generalizing s with
  | zero => cases h; exact hs
  | succ n ih =>
    rw [runLoop] at h
    split at h
    · cases h; exact hs
    · cases h; exact hs
    · split at h
      · rename_i u hu; exact ih h (hP s u hu hs)
      · cases h
      · cases h

/-! ### The base pointer (R29) -/

/-- No step writes `bp`. -/
theorem step_bp {s t : State} (h : step s = .next t) : t.bp = s.bp := by
  obtain ⟨-, rfl⟩ | ⟨-, k, n, -, rfl⟩ | ⟨-, i, n, u, -, hu, rfl⟩ := step_cases h
  · rfl
  · rfl
  · obtain ⟨-, hbp, -⟩ := (exec_effect hu).frame
    have hret : (u.retire i).bp = u.bp := by rw [State.retire]; split <;> rfl
    exact hret.trans hbp

/-- Cores that are equal but for `bp` are congruent: no operation names the field. -/
theorem congruence_bp (b : Word) : Congruence (fun _ => True) fun s t => t = { s with bp := b } := by
  constructor <;> intros <;> subst_vars <;> rfl

/-- Settles O49: `bp` is kept by every step (`step_bp`) and hence by every run, and a step of two cores that
are equal but for `bp` ends in such cores. -/
theorem basePointerIsNeverUsed : Obligations.BasePointerIsNeverUsed := by
  unfold Obligations.BasePointerIsNeverUsed
  refine ⟨fun s t b h => ⟨step_bp h, ?_⟩, fun n config image t h => ?_⟩
  · obtain ⟨t', u, ht, hu, rfl⟩ :=
      (congruence_bp b).step (s := s) (fun _ _ => trivial) rfl rfl rfl
    cases h.symm.trans ht
    exact hu
  · exact runLoop_keeps (fun _ _ hstep hbp => (step_bp hstep).trans hbp) h rfl

/-! ### The flags (R36) -/

/-- How a flag may differ between two runs that began with the values `g` and `f`: not at all, or because both
runs have left it alone. -/
def SameOrKept (g f a e : Bool) : Prop := e = a ∨ (a = g ∧ e = f)

/-- The two runs of `Instr.ReadsNoFlag`, at any point: equal but for the flag register, and there flag by flag
the same or kept from the start, where the flags were `g` and `f`. -/
def EqualButFlags (g f : Flags) (s t : State) : Prop :=
  ∃ e, t = s.setFlags e ∧ SameOrKept g.zero f.zero s.flags.zero e.zero ∧
    SameOrKept g.negative f.negative s.flags.negative e.negative ∧
    SameOrKept g.carry f.carry s.flags.carry e.carry ∧
    SameOrKept g.overflow f.overflow s.flags.overflow e.overflow ∧
    SameOrKept g.interrupt f.interrupt s.flags.interrupt e.interrupt

/-- The two states in which `Instr.ReadsNoFlag` begins. -/
theorem equalButFlags_start (s : State) (f : Flags) : EqualButFlags s.flags f s { s with flags := f } :=
  ⟨f, rfl, .inr ⟨rfl, rfl⟩, .inr ⟨rfl, rfl⟩, .inr ⟨rfl, rfl⟩, .inr ⟨rfl, rfl⟩, .inr ⟨rfl, rfl⟩⟩

/-- A flag that is written gets the same value in both runs, and every other flag stays as it was. -/
theorem congruence_equalButFlags (g f : Flags) : Congruence (fun _ => True) (EqualButFlags g f) where
  config := by rintro _ _ ⟨e, rfl, -⟩; rfl
  pc := by rintro _ _ ⟨e, rfl, -⟩; rfl
  sp := by rintro _ _ ⟨e, rfl, -⟩; rfl
  mem := by rintro _ _ ⟨e, rfl, -⟩; rfl
  runState := by rintro _ _ ⟨e, rfl, -⟩; rfl
  getReg := by rintro _ _ _ ⟨e, rfl, -⟩ _; rfl
  setReg _ := by rintro ⟨e, rfl, he⟩ _; exact ⟨e, rfl, he⟩
  setPc _ := by rintro ⟨e, rfl, he⟩; exact ⟨e, rfl, he⟩
  setSp _ := by rintro ⟨e, rfl, he⟩; exact ⟨e, rfl, he⟩
  setMem _ := by rintro ⟨e, rfl, he⟩; exact ⟨e, rfl, he⟩
  setRunState _ := by rintro ⟨e, rfl, he⟩; exact ⟨e, rfl, he⟩
  setLast _ := by rintro ⟨e, rfl, he⟩; exact ⟨e, rfl, he⟩
  withZero _ := by rintro ⟨e, rfl, -, hn, hc, ho, hi⟩; exact ⟨_, rfl, .inl rfl, hn, hc, ho, hi⟩
  withLogic _ := by rintro ⟨e, rfl, -, -, hc, ho, hi⟩; exact ⟨_, rfl, .inl rfl, .inl rfl, hc, ho, hi⟩
  withArith _ _ := by
    rintro ⟨e, rfl, -, -, -, -, hi⟩
    exact ⟨_, rfl, .inl rfl, .inl rfl, .inl rfl, .inl rfl, hi⟩

/-- An instruction reads no flag when `f` agrees with the state on the flag it tests, if it tests one. -/
theorem readsNoFlag_of_tested_eq {i : Instr} {s : State} {f : Flags}
    (hz : (∃ o, i = .jz o ∨ i = .jnz o) → f.zero = s.flags.zero)
    (hc : (∃ o, i = .jc o) → f.carry = s.flags.carry) : Instr.ReadsNoFlag i s f := by
  obtain ⟨t, u, ht, hu, e, rfl, he⟩ :=
    (congruence_equalButFlags s.flags f).exec (equalButFlags_start s f) trivial trivial hz hc
  exact ⟨t, _, ht, hu, rfl, he⟩

/-- Where the conditional jumps go (R152 to R154). -/
theorem exec_jz_pc {o : Operands} {s t : State} {d : Byte} (hd : o.data = some d)
    (h : exec (.jz o) s = .next t) : t.pc = if s.flags.zero then zext16 d else s.pc := by
  rw [exec, execJz, State.withData_some hd] at h
  cases h
  split <;> rfl

theorem exec_jnz_pc {o : Operands} {s t : State} {d : Byte} (hd : o.data = some d)
    (h : exec (.jnz o) s = .next t) : t.pc = if s.flags.zero then s.pc else zext16 d := by
  rw [exec, execJnz, State.withData_some hd] at h
  cases h
  split <;> rfl

theorem exec_jc_pc {o : Operands} {s t : State} {d : Byte} (hd : o.data = some d)
    (h : exec (.jc o) s = .next t) : t.pc = if s.flags.carry then zext16 d else s.pc := by
  rw [exec, execJc, State.withData_some hd] at h
  cases h
  split <;> rfl

/-- A choice between two different addresses shows the flag it was made by. -/
theorem ite_ne_ite {p q : Word} {b c : Bool} (hpq : p ≠ q) (hbc : c ≠ b) :
    (if b then p else q) ≠ if c then p else q := by
  cases b <;> cases c <;> simp_all [hpq.symm]

/-- Settles O53: the flag register is a congruence up to the flag a conditional jump tests, and the address a
conditional jump leaves in `pc` shows that flag. -/
theorem onlyConditionalJumpsReadFlags : Obligations.OnlyConditionalJumpsReadFlags := by
  unfold Obligations.OnlyConditionalJumpsReadFlags
  intro i s f
  refine ⟨?_, ?_, ?_, ?_⟩
  · rintro ⟨hjz, hjnz, hjc⟩
    refine readsNoFlag_of_tested_eq ?_ ?_
    · rintro ⟨o, h | h⟩
      · exact absurd h (hjz o)
      · exact absurd h (hjnz o)
    · rintro ⟨o, h⟩
      exact absurd h (hjc o)
  · rintro ⟨o, rfl | rfl⟩ hz <;> exact readsNoFlag_of_tested_eq (fun _ => hz) (by simp)
  · rintro ⟨o, rfl⟩ hc
    exact readsNoFlag_of_tested_eq (by simp) fun _ => hc
  · intro o d t u hd hne
    have hpc : zext16 d ≠ s.pc := by
      rintro h
      exact hne (by rw [← h, zext16_toNat])
    refine ⟨fun hf ht hu => ?_, fun hf ht hu => ?_, fun hf ht hu => ?_⟩
    · rw [exec_jz_pc hd ht, exec_jz_pc hd hu]; exact ite_ne_ite hpc hf
    · rw [exec_jnz_pc hd ht, exec_jnz_pc hd hu]; exact ite_ne_ite hpc.symm hf
    · rw [exec_jc_pc hd ht, exec_jc_pc hd hu]; exact ite_ne_ite hpc hf

end Sys2Proof.Machine
end

section
/-! PROOFS. The decoder on the bytes of an instruction (R82, R83, R90, R91): which opcode bytes resolve, which
fields the operand byte has as a number, and what `decode` gives when both register fields are addressable. -/

namespace Sys2Proof

open Machine

/-! ### The legal opcode bytes (R90, R91) -/

/-- The opcode table has a row for exactly the legal bytes, in the same order. -/
theorem opcodeRows_map_code : opcodeRows.map OpcodeRow.code = legalOpcodeBytes := rfl

theorem legalOpcodeBytes_nodup : legalOpcodeBytes.Nodup := opcodeRows_distinct

theorem decodeOpcode_eq_none_iff {op : Byte} : decodeOpcode op = none ↔ op ∉ legalOpcodeBytes := by
  simp [decodeOpcode, ← opcodeRows_map_code]

theorem resolveOpcode_of_illegal {op : Byte} (h : op ∉ legalOpcodeBytes) (o : Operands) (n : Nat) :
    resolveOpcode op o n = .fault .invalidOpcode n :=
  resolveOpcode_eq_fault_iff.mpr ⟨decodeOpcode_eq_none_iff.mpr h, rfl, rfl⟩

/-- A legal opcode byte resolves to an instruction that has that byte and the given operand fields. -/
theorem resolveOpcode_of_legal {op : Byte} (h : op ∈ legalOpcodeBytes) (o : Operands) (n : Nat) :
    ∃ i, resolveOpcode op o n = .ok i n ∧ opcodeOf i = op ∧ i.operands = o := by
  obtain ⟨mk, hmk⟩ := Option.ne_none_iff_exists'.mp (mt decodeOpcode_eq_none_iff.mp (not_not_intro h))
  exact ⟨mk o, resolveOpcode_eq_ok_iff.mpr ⟨mk, hmk, rfl, rfl⟩, decodeOpcode_sound hmk o⟩

/-- All but the 26 legal bytes are 256 - 26 = 230. -/
theorem card_illegalOpcodeBytes : Nat.card { op : Byte // op ∉ legalOpcodeBytes } = 230 := by
  have hlegal : legalOpcodeBytes.toFinset.card = 26 := List.toFinset_card_of_nodup legalOpcodeBytes_nodup
  have hbytes : Fintype.card Byte = 256 := FinEnum.card_eq_fintypeCard.symm.trans (FinEnum.card_bitVec 8)
  rw [Nat.subtype_card legalOpcodeBytes.toFinsetᶜ (by simp), Finset.card_compl, hlegal, hbytes]

/-- The seven ranges in which R91 writes out the illegal values of byte 0. -/
def InIllegalRanges (op : Byte) : Prop :=
  (0x04 ≤ op.toNat ∧ op.toNat ≤ 0x0F) ∨ (0x16 ≤ op.toNat ∧ op.toNat ≤ 0x1F) ∨
  (0x26 ≤ op.toNat ∧ op.toNat ≤ 0x2F) ∨ (0x36 ≤ op.toNat ∧ op.toNat ≤ 0x3F) ∨
  (0x42 ≤ op.toNat ∧ op.toNat ≤ 0x6F) ∨ (0x71 ≤ op.toNat ∧ op.toNat ≤ 0x7E) ∨
  (0x80 ≤ op.toNat ∧ op.toNat ≤ 0xFF)

theorem inIllegalRanges_iff (op : Byte) : InIllegalRanges op ↔ op ∉ legalOpcodeBytes := by
  simp only [InIllegalRanges, legalOpcodeBytes, List.mem_cons, List.not_mem_nil, or_false, ← BitVec.toNat_inj,
    BitVec.reduceToNat]
  omega

/-! ### The fields of the operand byte (R82, R83, R85) -/

@[simp] theorem operandReg1_val (ob : Byte) : (operandReg1 ob).val = ob.toNat / 8 % 8 := by
  simp [operandReg1, Nat.shiftRight_eq_div_pow]

@[simp] theorem operandReg2_val (ob : Byte) : (operandReg2 ob).val = ob.toNat % 8 := by
  simp [operandReg2]

@[simp] theorem Mode.code_ofCode (c : BitVec 2) : (Mode.ofCode c).code = c.toNat := by
  revert c
  decide

@[simp] theorem operandMode_code (ob : Byte) : (operandMode ob).code = ob.toNat / 64 := by
  have hlt : ob.toNat / 64 < 4 := by omega
  rw [operandMode, Mode.code_ofCode, operandModeCode, BitVec.extractLsb'_toNat, Nat.shiftRight_eq_div_pow]
  exact Nat.mod_eq_of_lt hlt

theorem Mode.hasData_iff {m : Mode} : m.hasData = true ↔ m.code = 0 ∨ m.code = 3 := by
  cases m <;> decide

theorem Mode.not_hasData_iff {m : Mode} : m.hasData = false ↔ m.code = 1 ∨ m.code = 2 := by
  cases m <;> decide

theorem operandMode_hasData {ob : Byte} (h : ob.toNat / 64 = 0 ∨ ob.toNat / 64 = 3) :
    (operandMode ob).hasData = true := by
  rwa [Mode.hasData_iff, operandMode_code]

theorem operandMode_noData {ob : Byte} (h : ob.toNat / 64 = 1 ∨ ob.toNat / 64 = 2) :
    (operandMode ob).hasData = false := by
  rwa [Mode.not_hasData_iff, operandMode_code]

/-! ### Decoding past the register check (R87 steps 5 to 7) -/

section
variable {op ob : Byte} (h1 : ob.toNat / 8 % 8 < 7) (h2 : ob.toNat % 8 < 7)
include h1 h2

theorem decode_of_registers (rest : List Byte) : decode (op :: ob :: rest) = decodeData op ob rest := by
  rw [decode, if_pos]
  simp [RegIdx.addressable, h1, h2]

/-- The instruction ends with its operand byte in modes 1 and 2. -/
theorem decode_of_noData (hm : ob.toNat / 64 = 1 ∨ ob.toNat / 64 = 2) (rest : List Byte) :
    decode (op :: ob :: rest) = resolveOpcode op (operandsOf ob none) 2 := by
  rw [decode_of_registers h1 h2, decodeData_of_noData rest (operandMode_noData hm)]

/-- The instruction ends with its data byte in modes 0 and 3. -/
theorem decode_of_data (hm : ob.toNat / 64 = 0 ∨ ob.toNat / 64 = 3) (d : Byte) (rest : List Byte) :
    decode (op :: ob :: d :: rest) = resolveOpcode op (operandsOf ob (some d)) 3 := by
  rw [decode_of_registers h1 h2, decodeData_of_data rest (operandMode_hasData hm)]

end

/-- With a legal opcode byte, the instruction has that byte and the numbers that stand in the operand byte. -/
theorem resolveOpcode_operandsOf {op : Byte} (h : op ∈ legalOpcodeBytes) (ob : Byte) (data : Option Byte) (n : Nat) :
    ∃ i, resolveOpcode op (operandsOf ob data) n = .ok i n ∧ opcodeOf i = op ∧
      i.operands.mode.code = ob.toNat / 64 ∧ i.operands.reg1.val = ob.toNat / 8 % 8 ∧
      i.operands.reg2.val = ob.toNat % 8 ∧ i.operands.data = data := by
  obtain ⟨i, hi, hop, hfields⟩ := resolveOpcode_of_legal h (operandsOf ob data) n
  refine ⟨i, hi, hop, ?_⟩
  rw [hfields]
  exact ⟨operandMode_code ob, operandReg1_val ob, operandReg2_val ob, rfl⟩

/-- Settles O28: past the register check, the mode alone says which bytes are consumed, and a legal opcode byte
resolves with the fields of the operand byte. -/
theorem decodeReadsOperandByteFields : Obligations.DecodeReadsOperandByteFields := by
  unfold Obligations.DecodeReadsOperandByteFields
  intro op ob rest hop h1 h2
  refine ⟨fun hm => ?_, fun hm d rest' hrest => ?_⟩
  · rw [decode_of_noData h1 h2 hm]
    exact resolveOpcode_operandsOf hop ob none 2
  · rw [hrest, decode_of_data h1 h2 hm]
    exact resolveOpcode_operandsOf hop ob (some d) 3

/-- Settles O29: the rule's ranges are the complement of the 26 legal bytes, which are distinct, and a byte
without a row of the table does not resolve. -/
theorem illegalOpcodeBytesAreInvalid : Obligations.IllegalOpcodeBytesAreInvalid := by
  unfold Obligations.IllegalOpcodeBytesAreInvalid
  refine ⟨?_, inIllegalRanges_iff, fun op hop ob d rest h1 h2 => ?_⟩
  · exact (Nat.card_congr (Equiv.subtypeEquivRight inIllegalRanges_iff)).trans card_illegalOpcodeBytes
  · have hill : op ∉ legalOpcodeBytes := (inIllegalRanges_iff op).mp hop
    by_cases hm : ob.toNat / 64 = 1 ∨ ob.toNat / 64 = 2
    · rw [if_pos hm, decode_of_noData h1 h2 hm, resolveOpcode_of_illegal hill]
    · have hdata : ob.toNat / 64 = 0 ∨ ob.toNat / 64 = 3 := by omega
      rw [if_neg hm, decode_of_data h1 h2 hdata, resolveOpcode_of_illegal hill]

end Sys2Proof
end

section
/-! PROOFS. Data movement (40_data_movement.md): what LOAD, MOV, STORE and SWAP answer, and that they write
nothing else. -/

namespace Sys2Proof.Machine

/-! ### The frame of a register write with its flags -/

/-- Writing one register and the flag register leaves the rest of the state as it was (`State.RegResult`). -/
theorem State.regResult_setReg_setFlags (s : State) (a : RegIdx) (r : Word) (f : Flags) :
    s.RegResult ((s.setReg a r).setFlags f) a r.toNat f := by
  refine ⟨?_, fun j hj => ?_, fun _ => rfl, rfl⟩
  · rw [State.setFlags_getReg, State.getReg_setReg_same]
  · rw [State.setFlags_getReg, State.getReg_setReg_other s r hj]

/-- `zero` as a decision about the number (R32). -/
theorem zeroOf_eq_decide (r : Word) : zeroOf r = decide (r.toNat = 0) :=
  Bool.eq_iff_iff.mpr ((zeroOf_iff r).trans decide_eq_true_iff.symm)

/-- A loaded value goes into its register and into `zero`, and nowhere else (R120, R122, R161). -/
theorem State.regResult_writeLoaded (s : State) (a : RegIdx) (r : Word) :
    s.RegResult (s.writeLoaded a r) a r.toNat { s.flags with zero := decide (r.toNat = 0) } := by
  rw [← zeroOf_eq_decide]
  exact s.regResult_setReg_setFlags a r _

/-! ### LOAD and MOV (R120, R122) -/

/-- The two rules are one. -/
theorem exec_load_or_mov {mk : Operands → Instr} (hmk : mk ∈ [Instr.load, Instr.mov]) (o : Operands) (s : State) :
    exec (mk o) s = s.withData o fun d => .next (s.writeLoaded o.reg1 (zext16 d)) := by
  obtain rfl | rfl : mk = .load ∨ mk = .mov := by simpa using hmk
  · rfl
  · rfl

/-- Settles O1: LOAD and MOV are a write of `zext_16(data)` to `x[reg1]` with its `zero` flag, when there is a
data byte. -/
theorem loadAndMovWriteZeroExtendedByte : Obligations.LoadAndMovWriteZeroExtendedByte := by
  unfold Obligations.LoadAndMovWriteZeroExtendedByte
  intro mk hmk o s
  rw [exec_load_or_mov hmk]
  refine ⟨fun d hd => ?_, State.withData_none⟩
  have hframe := s.regResult_writeLoaded o.reg1 (zext16 d)
  rw [zext16_toNat] at hframe
  exact ⟨_, State.withData_some hd, hframe⟩

/-! ### STORE (R121) -/

section
variable {o : Operands} {s : State} {d : Byte} (hd : o.data = some d)
include hd

/-- STORE inside memory. -/
theorem exec_store_of_lt (ha : (s.getReg o.reg1).toNat < s.config.memSize) :
    exec (.store o) s = .next (s.setMem (Memory.write s.mem (s.getReg o.reg1).toNat d)) := by
  rw [exec, execStore, State.withData_some hd, State.orMemoryFault_eq_next_iff]
  exact .inl (State.memWrite_eq_some_iff.mpr ⟨ha, rfl⟩)

/-- STORE outside memory. -/
theorem exec_store_of_ge (ha : s.config.memSize ≤ (s.getReg o.reg1).toNat) :
    exec (.store o) s = .next (s.setRunState (.faulted .memoryFault)) := by
  rw [exec, execStore, State.withData_some hd, State.orMemoryFault_eq_next_iff]
  exact .inr ⟨State.memWrite_eq_none_iff.mpr ha, rfl⟩

end

/-- Settles O2: the bounds check decides between one write of memory and the fault, and what memory reads after
the write is the law of `Memory.write`. -/
theorem storeWritesByteAtRegisterAddress : Obligations.StoreWritesByteAtRegisterAddress := by
  unfold Obligations.StoreWritesByteAtRegisterAddress
  refine fun o s => ⟨fun d hd => ⟨fun ha => ?_, exec_store_of_ge hd⟩, State.withData_none⟩
  exact ⟨_, exec_store_of_lt hd ha, Memory.read_write_same .., fun _ => Memory.read_write_other _ d, rfl⟩

/-! ### SWAP (R123) -/

/-- Settles O3: the second of SWAP's two writes is to `x[reg2]`, so `x[reg1]` keeps the first one unless the
registers are the same, and then both writes are of the old value. -/
theorem swapExchangesTwoRegisters : Obligations.SwapExchangesTwoRegisters := by
  unfold Obligations.SwapExchangesTwoRegisters
  refine fun o s => ⟨_, rfl, ?_, State.getReg_setReg_same .., fun j h1 h2 => ?_, rfl⟩
  · by_cases h : o.reg1 = o.reg2
    · rw [h, State.getReg_setReg_same]
    · rw [State.getReg_setReg_other _ _ h, State.getReg_setReg_same]
  · rw [State.getReg_setReg_other _ _ h2, State.getReg_setReg_other _ _ h1]

end Sys2Proof.Machine
end

section
/-! PROOFS. Arithmetic (41_arithmetic.md): the frame of an add-type and of a sub-type write, the numbers that ADD
and SUB compute, and what the two instructions answer. -/

namespace Sys2Proof.Machine

/-! ### The two writes of a result with its four flags (R130, R34) -/

section
variable (s : State) (a : RegIdx) {r : Word} {n : Nat} (hr : r.toNat = n)
include hr

/-- An add-type result of the number `n`, with `n < old` in carry and overflow. -/
theorem State.regResult_writeAddType :
    s.RegResult (s.writeAddType a r) a n
      { s.flags with zero := decide (n = 0), negative := decide (n > 0x7FFF),
                     carry := decide (n < (s.getReg a).toNat), overflow := decide (n < (s.getReg a).toNat) } := by
  subst hr
  rw [← zeroOf_eq_decide]
  exact s.regResult_setReg_setFlags a r _

/-- A sub-type result of the number `n`, with `n > old` in carry and overflow. -/
theorem State.regResult_writeSubType :
    s.RegResult (s.writeSubType a r) a n
      { s.flags with zero := decide (n = 0), negative := decide (n > 0x7FFF),
                     carry := decide (n > (s.getReg a).toNat), overflow := decide (n > (s.getReg a).toNat) } := by
  subst hr
  rw [← zeroOf_eq_decide]
  exact s.regResult_setReg_setFlags a r _

end

/-! ### The numbers of `wrap16(old + zext_16(data))` and `wrap16(old - zext_16(data))` -/

theorem add_zext16_toNat (w : Word) (d : Byte) : (w + zext16 d).toNat = (w.toNat + d.toNat) % 65536 := by
  rw [BitVec.toNat_add, zext16_toNat]

/-- The natural subtraction does not truncate, since a byte is below 65536. -/
theorem sub_zext16_toNat (w : Word) (d : Byte) : (w - zext16 d).toNat = (w.toNat + 65536 - d.toNat) % 65536 := by
  have hd := d.isLt
  rw [BitVec.toNat_sub, zext16_toNat]
  omega

/-! ### ADD and SUB (R131, R132) -/

/-- Settles O4: ADD is the add-type write of `x[reg1] + zext_16(data)`, when there is a data byte. -/
theorem addWrapsModulo65536 : Obligations.AddWrapsModulo65536 := by
  unfold Obligations.AddWrapsModulo65536
  refine fun o s => ⟨fun d hd => ?_, State.withData_none⟩
  exact ⟨_, State.withData_some hd, s.regResult_writeAddType o.reg1 (add_zext16_toNat _ d)⟩

/-- Settles O5: SUB is the sub-type write of `x[reg1] - zext_16(data)`, when there is a data byte. -/
theorem subWrapsModulo65536 : Obligations.SubWrapsModulo65536 := by
  unfold Obligations.SubWrapsModulo65536
  refine fun o s => ⟨fun d hd => ?_, State.withData_none⟩
  exact ⟨_, State.withData_some hd, s.regResult_writeSubType o.reg1 (sub_zext16_toNat _ d)⟩

end Sys2Proof.Machine
end

section
/-! PROOFS. Logic (42_logic.md): the frame of a logic write, the number and the flags of AND, OR and XOR with a
zero-extended byte, and what these three and NOT answer. -/

namespace Sys2Proof.Machine

/-! ### The write of a result with its two flags (R140) -/

/-- A logic result of the number `n`, under any spelling of its two flags; carry and overflow stay as they were. -/
theorem State.regResult_writeLogic (s : State) (a : RegIdx) {r : Word} {n : Nat} {z g : Bool} (hr : r.toNat = n)
    (hz : zeroOf r = z) (hn : negativeOf r = g) :
    s.RegResult (s.writeLogic a r) a n { s.flags with zero := z, negative := g } := by
  subst hr hz hn
  exact s.regResult_setReg_setFlags a r _

/-- With both flags as decisions about the number. -/
theorem State.regResult_writeLogic_decide (s : State) (a : RegIdx) {r : Word} {n : Nat} (hr : r.toNat = n) :
    s.RegResult (s.writeLogic a r) a n
      { s.flags with zero := decide (n = 0), negative := decide (n > 0x7FFF) } := by
  subst hr
  exact s.regResult_writeLogic a rfl (zeroOf_eq_decide r) rfl

/-! ### Bit 15 (R33)

`negative` depends on bit 15 only, which a zero-extended byte has clear. -/

/-- `negative` is bit 15. -/
theorem negativeOf_eq_msb (r : Word) : negativeOf r = r.msb := by
  rw [BitVec.msb_eq_decide]
  rfl

@[simp] theorem zext16_msb (d : Byte) : (zext16 d).msb = false := by
  have hd := d.isLt
  rw [BitVec.msb_eq_false_iff_two_mul_lt, zext16_toNat]
  omega

/-! ### The results of AND, OR and XOR with a zero-extended byte (R141, R142, R143) -/

section
variable (w : Word) (d : Byte)

theorem and_zext16_toNat : (w &&& zext16 d).toNat = w.toNat &&& d.toNat := by
  rw [BitVec.toNat_and, zext16_toNat]

theorem or_zext16_toNat : (w ||| zext16 d).toNat = w.toNat ||| d.toNat := by
  rw [BitVec.toNat_or, zext16_toNat]

theorem xor_zext16_toNat : (w ^^^ zext16 d).toNat = w.toNat ^^^ d.toNat := by
  rw [BitVec.toNat_xor, zext16_toNat]

theorem zeroOf_and_zext16 : zeroOf (w &&& zext16 d) = decide (w.toNat &&& d.toNat = 0) := by
  rw [zeroOf_eq_decide, and_zext16_toNat]

theorem zeroOf_or_zext16 : zeroOf (w ||| zext16 d) = decide (w.toNat = 0 ∧ d.toNat = 0) := by
  rw [zeroOf_eq_decide, or_zext16_toNat, decide_eq_decide]
  exact Nat.or_eq_zero_iff

theorem zeroOf_xor_zext16 : zeroOf (w ^^^ zext16 d) = decide (w.toNat = d.toNat) := by
  rw [zeroOf_eq_decide, xor_zext16_toNat, decide_eq_decide]
  exact Nat.xor_eq_zero_iff

theorem negativeOf_and_zext16 : negativeOf (w &&& zext16 d) = false := by
  rw [negativeOf_eq_msb, BitVec.msb_and, zext16_msb, Bool.and_false]

theorem negativeOf_or_zext16 : negativeOf (w ||| zext16 d) = negativeOf w := by
  rw [negativeOf_eq_msb, negativeOf_eq_msb, BitVec.msb_or, zext16_msb, Bool.or_false]

theorem negativeOf_xor_zext16 : negativeOf (w ^^^ zext16 d) = negativeOf w := by
  rw [negativeOf_eq_msb, negativeOf_eq_msb, BitVec.msb_xor, zext16_msb, Bool.xor_false]

end

/-! ### AND, OR and XOR (R141, R142, R143) -/

/-- Settles O10: each of the three is a logic write of its bitwise result, when there is a data byte. -/
theorem bitwiseImmediateOperations : Obligations.BitwiseImmediateOperations := by
  unfold Obligations.BitwiseImmediateOperations
  refine fun o s => ⟨fun d hd => ⟨?and, ?or, ?xor⟩, fun hd => ?noData⟩
  case and =>
    exact ⟨_, State.withData_some hd, s.regResult_writeLogic o.reg1 (and_zext16_toNat _ d)
      (zeroOf_and_zext16 _ d) (negativeOf_and_zext16 _ d)⟩
  case or =>
    exact ⟨_, State.withData_some hd, s.regResult_writeLogic o.reg1 (or_zext16_toNat _ d)
      (zeroOf_or_zext16 _ d) (negativeOf_or_zext16 _ d)⟩
  case xor =>
    exact ⟨_, State.withData_some hd, s.regResult_writeLogic o.reg1 (xor_zext16_toNat _ d)
      (zeroOf_xor_zext16 _ d) (negativeOf_xor_zext16 _ d)⟩
  case noData =>
    exact ⟨State.withData_none hd, State.withData_none hd, State.withData_none hd⟩

/-! ### NOT (R144) -/

/-- The register file is what its eight cells read as. -/
theorem State.regs_eq_of_getReg {s t : State} (h : ∀ j, t.getReg j = s.getReg j) : t.regs = s.regs :=
  Vector.ext fun k hk => h ⟨k, hk⟩

/-- A logic write is undone, in the registers, by a logic write of the old value. -/
theorem State.regs_writeLogic_old (s : State) (a : RegIdx) (r : Word) :
    ((s.writeLogic a r).writeLogic a (s.getReg a)).regs = s.regs := by
  refine State.regs_eq_of_getReg fun j => ?_
  by_cases hj : j = a
  · subst hj
    rw [State.writeLogic_getReg, if_pos rfl]
  · rw [State.writeLogic_getReg, if_neg hj, State.writeLogic_getReg, if_neg hj]

/-- Settles O11: NOT is a logic write of the complement in every mode, and the complement of what it leaves in
the register is the old value. -/
theorem notInvertsAllBits : Obligations.NotInvertsAllBits := by
  unfold Obligations.NotInvertsAllBits
  intro o s
  have hback : ~~~(s.writeLogic o.reg1 (~~~s.getReg o.reg1)).getReg o.reg1 = s.getReg o.reg1 := by
    rw [State.writeLogic_getReg, if_pos rfl, BitVec.not_not]
  refine ⟨_, rfl, s.regResult_writeLogic_decide o.reg1 BitVec.toNat_not, _, rfl, ?_⟩
  rw [hback]
  exact s.regs_writeLogic_old o.reg1 _

end Sys2Proof.Machine
end

section
/-! PROOFS. Control flow (43_control_flow.md): the jump target, what CALL answers with and without room for its
two bytes, and what memory reads as after both pushes. -/

namespace Sys2Proof.Machine

/-! ### The jump target (R150) -/

/-- A jump writes `pc` with the number of the data byte. -/
theorem State.jumpTo_eq (s : State) (d : Byte) : s.jumpTo d = { s with pc := BitVec.ofNat 16 d.toNat } := by
  rw [BitVec.ofNat_toNat]
  rfl

/-! ### CALL (R155) -/

theorem lowByte_toNat (v : Word) : (lowByte v).toNat = v.toNat % 256 := by
  rw [lowByte, BitVec.extractLsb'_toNat, Nat.shiftRight_zero]

theorem highByte_toNat (v : Word) : (highByte v).toNat = v.toNat / 256 := by
  have hv := v.isLt
  rw [highByte, BitVec.extractLsb'_toNat, Nat.shiftRight_eq_div_pow]
  omega

/-- The two bytes of a return address never share a cell. -/
theorem sp_sub_one_toNat_ne (a : Word) : (a - 1).toNat ≠ (a - 2).toNat := by
  bv_omega

/-- The memory CALL leaves: the low byte of the return address at `sp - 1` and the high byte at `sp - 2`. -/
def State.callMem (s : State) : Memory :=
  Memory.write (Memory.write s.mem (s.sp - 1).toNat (lowByte s.pc)) (s.sp - 2).toNat (highByte s.pc)

/-- The second push leaves the low byte alone. -/
theorem State.read_callMem_low (s : State) : Memory.read s.callMem (s.sp - 1).toNat = lowByte s.pc := by
  rw [State.callMem, Memory.read_write_other _ _ (sp_sub_one_toNat_ne s.sp), Memory.read_write_same]

theorem State.read_callMem_high (s : State) : Memory.read s.callMem (s.sp - 2).toNat = highByte s.pc :=
  Memory.read_write_same ..

theorem State.read_callMem_other (s : State) {a : Nat} (h1 : a ≠ (s.sp - 1).toNat) (h2 : a ≠ (s.sp - 2).toNat) :
    Memory.read s.callMem a = Memory.read s.mem a := by
  rw [State.callMem, Memory.read_write_other _ _ h2, Memory.read_write_other _ _ h1]

section
variable {o : Operands} {s : State} {d : Byte} (hd : o.data = some d)
include hd

/-- CALL with room for both bytes. -/
theorem exec_call_of_room (h1 : (s.sp - 1).toNat < s.config.memSize) (h2 : (s.sp - 2).toNat < s.config.memSize) :
    exec (.call o) s = .next (((s.setMem s.callMem).setSp (s.sp - 2)).jumpTo d) := by
  rw [exec, execCall, State.withData_some hd, State.pushByte_twice _ _ h1 h2]
  rfl

/-- CALL when a byte would lie outside memory: neither push is kept. -/
theorem exec_call_of_no_room (h : s.config.memSize ≤ (s.sp - 1).toNat ∨ s.config.memSize ≤ (s.sp - 2).toNat) :
    exec (.call o) s = .next (s.setRunState (.faulted .memoryFault)) := by
  rw [exec, execCall, State.withData_some hd, State.pushByte_twice_none _ _ h]
  rfl

end

/-- Settles O14: CALL's two pushes succeed or fail together, and their two addresses differ, so each byte is read
back where it was pushed. -/
theorem callPushesReturnAddressAndJumps : Obligations.CallPushesReturnAddressAndJumps := by
  unfold Obligations.CallPushesReturnAddressAndJumps
  refine fun o s => ⟨fun d hd => ⟨fun h1 h2 => ?_, exec_call_of_no_room hd⟩, State.withData_none⟩
  refine ⟨_, exec_call_of_room hd h1 h2, ?low, ?high, fun a ha1 ha2 => ?other, ?frame⟩
  case low => exact (congrArg BitVec.toNat s.read_callMem_low).trans (lowByte_toNat s.pc)
  case high => exact (congrArg BitVec.toNat s.read_callMem_high).trans (highByte_toNat s.pc)
  case other => exact s.read_callMem_other ha1 ha2
  case frame => exact State.jumpTo_eq _ d

/-! ### JMP, JZ, JNZ and JC (R151 to R154) -/

/-- Settles O13: each of the four is a choice between `jumpTo` and the state as it is, when there is a data byte;
JNZ's choice is JZ's with the branches exchanged. -/
theorem jumpsWriteOnlyPc : Obligations.JumpsWriteOnlyPc := by
  unfold Obligations.JumpsWriteOnlyPc
  refine fun o s => ⟨fun d hd => ?taken, fun hd => ?noData⟩
  case noData =>
    exact ⟨State.withData_none hd, State.withData_none hd, State.withData_none hd, State.withData_none hd⟩
  case taken =>
    rw [← State.jumpTo_eq]
    refine ⟨State.withData_some hd, State.withData_some hd, (State.withData_some hd).trans ?jnz,
      State.withData_some hd⟩
    case jnz =>
      cases hz : s.flags.zero with
      | true => rfl
      | false => rfl

end Sys2Proof.Machine
end

section
/-! PROOFS. Stack (44_stack.md): what PUSH answers with and without room for its byte. -/

namespace Sys2Proof.Machine

/-! ### PUSH (R160) -/

section
variable {o : Operands} {s : State} {d : Byte} (hd : o.data = some d)
include hd

/-- PUSH with room for its byte. -/
theorem exec_push_of_room (ha : (s.sp - 1).toNat < s.config.memSize) :
    exec (.push o) s = .next ((s.setMem (Memory.write s.mem (s.sp - 1).toNat d)).setSp (s.sp - 1)) := by
  rw [exec, execPush, State.withData_some hd, State.orMemoryFault_eq_next_iff]
  exact .inl (State.pushByte_eq_some_iff.mpr ⟨ha, rfl⟩)

/-- PUSH when its byte would lie outside memory: `sp` does not move. -/
theorem exec_push_of_no_room (ha : s.config.memSize ≤ (s.sp - 1).toNat) :
    exec (.push o) s = .next (s.setRunState (.faulted .memoryFault)) := by
  rw [exec, execPush, State.withData_some hd, State.orMemoryFault_eq_next_iff]
  exact .inr ⟨State.pushByte_eq_none_iff.mpr ha, rfl⟩

end

/-- Settles O17: the bounds check at `sp - 1` decides between the push and the fault, and what memory reads after
the push is the law of `Memory.write`. -/
theorem pushStoresByteBelowSp : Obligations.PushStoresByteBelowSp := by
  unfold Obligations.PushStoresByteBelowSp
  refine fun o s => ⟨fun d hd => ⟨fun ha => ?room, exec_push_of_no_room hd⟩, State.withData_none⟩
  refine ⟨_, exec_push_of_room hd ha, ?pushed, fun a hne => ?other, rfl⟩
  case pushed => exact Memory.read_write_same ..
  case other => exact Memory.read_write_other _ d hne

end Sys2Proof.Machine
end

section
/-! PROOFS. System (45_system.md): NOP is the identity on states, and HALT is one write of the run state. -/

namespace Sys2Proof.Machine

/-- Settles O20: NOP's rule (R165) answers its argument; the operands are not looked at. -/
theorem nopChangesNothing : Obligations.NopChangesNothing := by
  unfold Obligations.NopChangesNothing
  intro o s
  rw [exec, execNop]

/-- Settles O21: HALT's rule (R166) is one `setRunState`, and a `setRunState` is the update of that one field. -/
theorem haltOnlySetsHalted : Obligations.HaltOnlySetsHalted := by
  unfold Obligations.HaltOnlySetsHalted
  intro o s
  rw [exec, execHalt, State.setRunState]

end Sys2Proof.Machine
end

section
/-! PROOFS. The cycle and the decode faults (60_exceptions.md): what `decode` gives at the register check and at a
missing data byte, what a fetch reads at each distance from the end of memory, and what a step answers when
decoding faults and when it gives an instruction. -/

namespace Sys2Proof

/-! ### Decoding that ends at R87 step 5 or 6 -/

/-- A register field of 7 ends decoding at the operand byte, before the data byte and the opcode byte are looked
at (R177). -/
theorem decode_of_register_seven {op ob : Byte} (h : ob.toNat / 8 % 8 = 7 ∨ ob.toNat % 8 = 7) (rest : List Byte) :
    decode (op :: ob :: rest) = .fault .invalidRegisterNumber 2 := by
  rw [decode, if_neg]
  simp only [RegIdx.addressable, operandReg1_val, operandReg2_val, Bool.and_eq_true, decide_eq_true_eq]
  omega

/-- In modes 0 and 3 the bytes may not end at the operand byte (R178). -/
theorem decode_of_missing_data {op ob : Byte} (h1 : ob.toNat / 8 % 8 < 7) (h2 : ob.toNat % 8 < 7)
    (hm : ob.toNat / 64 = 0 ∨ ob.toNat / 64 = 3) : decode [op, ob] = .fault .missingDataByte 2 := by
  rw [decode_of_registers h1 h2, decodeData_of_missing (operandMode_hasData hm)]

end Sys2Proof

namespace Sys2Proof.Machine

/-! ### What a fetch reads near the end of memory (R26, R87) -/

section
variable {s : State}

theorem State.fetchBytes_of_out_of_bounds (h : s.config.memSize ≤ s.pc.toNat) : s.fetchBytes = [] :=
  s.bytesFrom_of_ge _ h

/-- Only the opcode byte lies in memory. -/
theorem State.fetchBytes_of_last_cell (h : s.pc.toNat + 1 = s.config.memSize) :
    s.fetchBytes = [Memory.read s.mem s.pc.toNat] := by
  rw [State.fetchBytes, maxInstrLength, s.bytesFrom_of_lt 2 (by omega), s.bytesFrom_of_ge 2 (by omega)]

/-- The opcode and the operand byte lie in memory; a third byte is what can be read behind them. -/
theorem State.fetchBytes_of_operand (h : s.pc.toNat + 1 < s.config.memSize) :
    s.fetchBytes = Memory.read s.mem s.pc.toNat :: Memory.read s.mem (s.pc.toNat + 1) ::
      s.bytesFrom (s.pc.toNat + 2) 1 := by
  rw [State.fetchBytes, maxInstrLength, s.bytesFrom_of_lt 2 (by omega), s.bytesFrom_of_lt 1 h]

/-- `pc` past the bytes consumed, as the number of the address reached (R25). -/
theorem State.pc_add_eq_ofNat {n m : Nat} (h : s.pc.toNat + n = m) :
    s.pc + BitVec.ofNat 16 n = BitVec.ofNat 16 m := by
  rw [← h, BitVec.ofNat_add, BitVec.ofNat_toNat, BitVec.setWidth_eq]

/-! ### A step by what decoding gives (R170) -/

variable (hr : s.runState = .running)
include hr

/-- A decode fault advances `pc` by the bytes consumed and ends the run; nothing else changes (R89, R185). -/
theorem step_of_decode_fault {k : FaultKind} {n : Nat} (hd : decode s.fetchBytes = .fault k n) :
    step s = .next { s with pc := s.pc + BitVec.ofNat 16 n, runState := .faulted k } := by
  rw [step_of_running hr, hd]
  rfl

/-- A decoded instruction is executed with `pc` past it, and what that answers is retired (R24, R39). -/
theorem step_of_decode_ok {i : Instr} {n : Nat} {t : State} (hd : decode s.fetchBytes = .ok i n)
    (he : exec i { s with pc := s.pc + BitVec.ofNat 16 n } = .next t) : step s = .next (t.retire i) := by
  rw [step_of_running hr, hd]
  exact congrArg (retireOutcome i) he

end

/-! ### The cycle (R170) -/

/-- Settles O30: a step is `afterDecode` of what the fetch decodes to, and `retire` sets `last` unless the
execution has faulted. -/
theorem stepRunsDecodedInstruction : Obligations.StepRunsDecodedInstruction := by
  unfold Obligations.StepRunsDecodedInstruction
  refine fun s hr => ⟨fun k n => step_of_decode_fault hr, fun i n t hd he => ⟨fun hf => ?faulted, fun hf => ?ran⟩⟩
  case faulted =>
    rw [step_of_decode_ok hr hd he, State.retire_of_faulted i (State.isFaulted_iff.mpr hf)]
  case ran =>
    have hnot : t.isFaulted = false := by
      rw [← Bool.not_eq_true, State.isFaulted_iff, not_exists]
      exact hf
    rw [step_of_decode_ok hr hd he, State.retire_of_not_faulted i hnot, State.setLast]

/-! ### The decode faults (R175 to R179) -/

/-- Settles O32: nothing can be read at `pc`, so decoding consumes no byte and `pc` stays. -/
theorem programCounterOutOfBoundsAtFetch : Obligations.ProgramCounterOutOfBoundsAtFetch := by
  unfold Obligations.ProgramCounterOutOfBoundsAtFetch
  intro s hr hpc
  have hd : decode s.fetchBytes = .fault .programCounterOutOfBounds 0 := by
    rw [State.fetchBytes_of_out_of_bounds hpc, decode]
  rw [step_of_decode_fault hr hd, BitVec.add_zero]

/-- Settles O33: one byte can be read, and it is consumed. -/
theorem missingOperandByteAtFetch : Obligations.MissingOperandByteAtFetch := by
  unfold Obligations.MissingOperandByteAtFetch
  intro s hr hpc
  have hd : decode s.fetchBytes = .fault .missingOperandByte 1 := by
    rw [State.fetchBytes_of_last_cell hpc, decode]
  rw [step_of_decode_fault hr hd, State.pc_add_eq_ofNat hpc]

/-- Settles O34: the register check stands before the data byte and before the opcode byte. -/
theorem invalidRegisterNumberAtFetch : Obligations.InvalidRegisterNumberAtFetch := by
  unfold Obligations.InvalidRegisterNumberAtFetch
  intro s hr hpc hreg
  have hd : decode s.fetchBytes = .fault .invalidRegisterNumber 2 := by
    rw [State.fetchBytes_of_operand hpc, decode_of_register_seven hreg]
  exact step_of_decode_fault hr hd

/-- Settles O35: memory ends behind the operand byte, and the mode wants a data byte. -/
theorem missingDataByteAtFetch : Obligations.MissingDataByteAtFetch := by
  unfold Obligations.MissingDataByteAtFetch
  rintro s hr hpc ⟨h1, h2, hm⟩
  have hd : decode s.fetchBytes = .fault .missingDataByte 2 := by
    rw [State.fetchBytes_of_operand (by omega), s.bytesFrom_of_ge 1 hpc.ge,
      decode_of_missing_data (by omega) (by omega) hm]
  rw [step_of_decode_fault hr hd, State.pc_add_eq_ofNat hpc]

/-- Settles O36: the opcode byte is resolved last, when the mode's two or three bytes have been consumed. -/
theorem invalidOpcodeAtFetch : Obligations.InvalidOpcodeAtFetch := by
  unfold Obligations.InvalidOpcodeAtFetch
  rintro s hr hpc hop ⟨h1, h2⟩
  refine ⟨fun hm => ?twoBytes, fun hm hpc2 => ?threeBytes⟩
  case twoBytes =>
    have hd : decode s.fetchBytes = .fault .invalidOpcode 2 := by
      rw [State.fetchBytes_of_operand hpc, decode_of_noData (by omega) (by omega) hm, resolveOpcode_of_illegal hop]
    exact step_of_decode_fault hr hd
  case threeBytes =>
    have hd : decode s.fetchBytes = .fault .invalidOpcode 3 := by
      rw [State.fetchBytes_of_operand hpc, s.bytesFrom_of_lt 0 hpc2, decode_of_data (by omega) (by omega) hm,
        resolveOpcode_of_illegal hop]
    exact step_of_decode_fault hr hd

end Sys2Proof.Machine
end

section
/-! PROOFS. The round trip of the encoding (30_encoding.md section 6): what `decode` gives on the encoding of a
well-formed instruction, what stands behind an answer of `decode`, and the number of legal byte sequences. -/

namespace Sys2Proof

open Machine

/-! ### Every instruction has its own row of the opcode table (R90) -/

theorem decodeOpcode_opcodeOf (i : Instr) : ∃ mk, decodeOpcode (opcodeOf i) = some mk ∧ mk i.operands = i := by
  cases i <;> exact ⟨_, rfl, rfl⟩

theorem legalOpcodeBytes_iff {op : Byte} : op ∈ legalOpcodeBytes ↔ ∃ mk, decodeOpcode op = some mk := by
  rw [← Option.ne_none_iff_exists', ne_eq, decodeOpcode_eq_none_iff, not_not]

/-! ### Well-formed operand fields (R22, R86) -/

/-- The three conditions of R86, with the data byte by mode. -/
theorem Operands.wf_iff {o : Operands} : o.wf = true ↔
    o.reg1.addressable = true ∧ o.reg2.addressable = true ∧
      ((o.mode.hasData = true ∧ ∃ d, o.data = some d) ∨ (o.mode.hasData = false ∧ o.data = none)) := by
  obtain ⟨m, r1, r2, d⟩ := o
  cases d <;> cases h : m.hasData <;> simp [Operands.wf, h]

theorem dataBytes_of_data {o : Operands} {d : Byte} (hm : o.mode.hasData = true) (hd : o.data = some d) :
    dataBytes o = [d] := by
  simp [dataBytes, hm, hd]

theorem dataBytes_of_noData {o : Operands} (hm : o.mode.hasData = false) : dataBytes o = [] := by
  simp [dataBytes, hm]

/-- What the decoder makes of an operand byte without a register 7, and of the data byte its mode asks for, is a
well-formed record. -/
theorem operandsOf_wf {ob : Byte} {data : Option Byte} (h1 : (operandReg1 ob).addressable = true)
    (h2 : (operandReg2 ob).addressable = true) (hm : data.isSome = (operandMode ob).hasData) :
    (operandsOf ob data).wf = true := by
  simp [Operands.wf, operandsOf, h1, h2, hm]

/-- The encoder gives the decoder's two first bytes back. -/
theorem encode_of_operandsOf {op ob : Byte} {mk : Operands → Instr} (hmk : decodeOpcode op = some mk)
    (data : Option Byte) :
    encode (mk (operandsOf ob data)) = op :: ob :: dataBytes (operandsOf ob data) := by
  obtain ⟨hop, hfields⟩ := decodeOpcode_sound hmk (operandsOf ob data)
  rw [encode, hop, hfields, operandByte_operandsOf]

/-! ### The two directions -/

/-- Settles O25: the opcode byte resolves to the instruction's own operation, the operand byte gives back the three
fields, and the mode says whether the byte after it is the data byte or the first of the bytes that follow. -/
theorem decodeOfEncode : Obligations.DecodeOfEncode := by
  unfold Obligations.DecodeOfEncode
  intro i rest hwf
  obtain ⟨mk, hmk, hi⟩ := decodeOpcode_opcodeOf i
  obtain ⟨h1, h2, hdata⟩ := Operands.wf_iff.mp hwf
  refine decode_eq_ok_iff.mpr ⟨opcodeOf i, operandByte i.operands, dataBytes i.operands ++ rest, mk, rfl, hmk, ?_⟩
  rw [operandReg1_operandByte, operandReg2_operandByte, operandMode_operandByte]
  refine ⟨h1, h2, ?_⟩
  obtain ⟨hm, d, hd⟩ | ⟨hm, hd⟩ := hdata
  · have hbytes := dataBytes_of_data hm hd
    refine .inl ⟨hm, d, rest, by rw [hbytes]; rfl, ?_, by rw [encode, hbytes]; rfl⟩
    rw [← hd, operandsOf_operandByte, hi]
  · refine .inr ⟨hm, ?_, by rw [encode, dataBytes_of_noData hm]; rfl⟩
    rw [← hd, operandsOf_operandByte, hi]

/-- Settles O26: an accepted list begins with an opcode byte of the table and an operand byte without a register 7,
and the record made of them keeps every bit of both. -/
theorem encodeOfDecode : Obligations.EncodeOfDecode := by
  unfold Obligations.EncodeOfDecode
  intro bytes i n h
  obtain ⟨op, ob, rest, mk, rfl, hmk, h1, h2, hcase⟩ := decode_eq_ok_iff.mp h
  obtain ⟨hm, d, rest', rfl, rfl, rfl⟩ | ⟨hm, rfl, rfl⟩ := hcase
  · refine ⟨?_, ?_, by simp, .inr rfl⟩
    · rw [Instr.wf, (decodeOpcode_sound hmk _).2]
      exact operandsOf_wf h1 h2 hm.symm
    · rw [encode_of_operandsOf hmk, dataBytes_of_data (o := operandsOf ob (some d)) hm rfl]
      rfl
  · refine ⟨?_, ?_, by simp, .inl rfl⟩
    · rw [Instr.wf, (decodeOpcode_sound hmk _).2]
      exact operandsOf_wf h1 h2 hm.symm
    · rw [encode_of_operandsOf hmk, dataBytes_of_noData (o := operandsOf ob none) hm]
      rfl

/-! ### The number of legal sequences -/

/-- The operand bytes whose two registers are addressable, by whether their mode has a data byte. -/
abbrev LegalOperandByte (hasData : Bool) : Type :=
  { ob : Byte // (operandReg1 ob).addressable = true ∧ (operandReg2 ob).addressable = true ∧
      (operandMode ob).hasData = hasData }

abbrev LegalOpcodeByte : Type := { op : Byte // op ∈ legalOpcodeBytes }

/-- The choices that make up a legal sequence: an opcode byte, and an operand byte with or without a data byte. -/
abbrev LegalChoice : Type := LegalOpcodeByte × (LegalOperandByte true × Byte ⊕ LegalOperandByte false)

def LegalChoice.bytes : LegalChoice → List Byte
  | (op, .inl (ob, d)) => [op.val, ob.val, d]
  | (op, .inr ob) => [op.val, ob.val]

theorem LegalChoice.bytes_injective : Function.Injective LegalChoice.bytes := by
  rintro ⟨op, ⟨ob, d⟩ | ob⟩ ⟨op', ⟨ob', d'⟩ | ob'⟩ h <;>
    simp_all [LegalChoice.bytes, Subtype.ext_iff]

/-- The sequences the decoder reads whole are those of the choices. -/
theorem LegalChoice.mem_range_bytes {bytes : List Byte} :
    bytes ∈ Set.range LegalChoice.bytes ↔ ∃ i, decode bytes = .ok i bytes.length := by
  constructor
  · rintro ⟨⟨⟨op, hop⟩, ⟨⟨ob, h1, h2, hm⟩, d⟩ | ⟨ob, h1, h2, hm⟩⟩, rfl⟩ <;>
      obtain ⟨mk, hmk⟩ := legalOpcodeBytes_iff.mp hop
    · exact ⟨_, decode_eq_ok_iff.mpr ⟨op, ob, [d], mk, rfl, hmk, h1, h2, .inl ⟨hm, d, [], rfl, rfl, rfl⟩⟩⟩
    · exact ⟨_, decode_eq_ok_iff.mpr ⟨op, ob, [], mk, rfl, hmk, h1, h2, .inr ⟨hm, rfl, rfl⟩⟩⟩
  · rintro ⟨i, h⟩
    obtain ⟨op, ob, rest, mk, rfl, hmk, h1, h2, hcase⟩ := decode_eq_ok_iff.mp h
    have hop := legalOpcodeBytes_iff.mpr ⟨mk, hmk⟩
    obtain ⟨hm, d, rest', rfl, -, hlen⟩ | ⟨hm, -, hlen⟩ := hcase
    · obtain rfl : rest' = [] := by simpa using hlen
      exact ⟨(⟨op, hop⟩, .inl (⟨ob, h1, h2, hm⟩, d)), rfl⟩
    · obtain rfl : rest = [] := by simpa using hlen
      exact ⟨(⟨op, hop⟩, .inr ⟨ob, h1, h2, hm⟩), rfl⟩

theorem card_byte : Nat.card Byte = 256 := by
  rw [Nat.card_eq_fintype_card, ← FinEnum.card_eq_fintypeCard, FinEnum.card_bitVec]
  rfl

theorem card_legalOpcodeByte : Nat.card LegalOpcodeByte = 26 := by
  rw [Nat.subtype_card legalOpcodeBytes.toFinset (by simp), List.toFinset_card_of_nodup legalOpcodeBytes_nodup]
  rfl

/-- Two modes, and seven register numbers in each of two fields. -/
theorem card_legalOperandByte (hasData : Bool) : Nat.card (LegalOperandByte hasData) = 98 := by
  rw [Nat.card_eq_fintype_card, Fintype.card_subtype]
  revert hasData
  decide

/-- Settles O27: the legal sequences are counted by the choices that make them up, 26 * (98 * 256 + 98). -/
theorem numberOfLegalSequences : Obligations.NumberOfLegalSequences := by
  unfold Obligations.NumberOfLegalSequences
  calc Nat.card { bytes : List Byte // ∃ i, decode bytes = .ok i bytes.length }
      = Nat.card (Set.range LegalChoice.bytes) :=
        Nat.card_congr (Equiv.subtypeEquivRight fun _ => LegalChoice.mem_range_bytes.symm)
    _ = Nat.card LegalChoice := Nat.card_range_of_injective LegalChoice.bytes_injective
    _ = 26 * (98 * 256 + 98) := by
        rw [Nat.card_prod, Nat.card_sum, Nat.card_prod, card_legalOpcodeByte, card_legalOperandByte,
          card_legalOperandByte, card_byte]
    _ = 654836 := rfl

/-! ### Sample words -/

/-- Settles O24: the decoder evaluates on each of the six words. -/
theorem sampleWordsDecode : Obligations.SampleWordsDecode := by
  unfold Obligations.SampleWordsDecode
  decide

end Sys2Proof
end

section
/-! PROOFS. The invariant (10_state.md sections 4 and 6, 20_memory.md section 1): which writes keep it, that every
shape of `Effect` is made of such writes, and that a core as it is constructed meets it. With it the values of a
core at reset and of a constructed core (70_reset_and_hazards.md). -/

namespace Sys2Proof.Machine

/-! ### Writes that keep the invariant -/

section
variable {s : State} (h : s.Inv)
include h

/-- Registers, `pc`, `bp`, the flags and the run state do not matter. -/
theorem State.Inv.of_same {t : State} (hc : t.config = s.config) (hm : t.mem = s.mem) (hs : t.sp = s.sp)
    (hl : t.last = s.last) : t.Inv where
  mem_wf := hm ▸ h.mem_wf
  mem_bound := by rw [hm, hc]; exact h.mem_bound
  sp_le := by rw [hs, hc]; exact h.sp_le
  last_wf := hl ▸ h.last_wf

theorem State.Inv.setSp {v : Word} (hv : v.toNat ≤ s.config.memSize) : (s.setSp v).Inv where
  mem_wf := h.mem_wf
  mem_bound := h.mem_bound
  sp_le := hv
  last_wf := h.last_wf

theorem State.Inv.write {a : Nat} (d : Byte) (ha : a < s.config.memSize) :
    (s.setMem (Memory.write s.mem a d)).Inv where
  mem_wf := Memory.wf_write a d h.mem_wf
  mem_bound := Memory.bound_write d h.mem_bound ha
  sp_le := h.sp_le
  last_wf := h.last_wf

theorem State.Inv.setLast {i : Instr} (hi : i.wf = true) : (s.setLast (some i)).Inv where
  mem_wf := h.mem_wf
  mem_bound := h.mem_bound
  sp_le := h.sp_le
  last_wf := by rintro _ ⟨⟩; exact hi

/-- The bounds checks that guard an access of memory or of the stack are what the invariant needs. -/
theorem Effect.keeps_inv {i : Instr} {t : State} (he : Effect i s t) : t.Inv := by
  cases he with
  | unchanged => exact h
  | faulted | loaded | swapped | addType | subType | logic | jumped | halted => exact h.of_same rfl rfl rfl rfl
  | stored o d _ ha => exact h.write d ha
  | pushed o d _ ha => exact (h.write d ha).setSp ha.le
  | called o lo hi p _ h1 h2 =>
    exact (((h.write lo h1).write hi h2).setSp h2.le).of_same rfl rfl rfl rfl
  | returned o p _ h1 h2 =>
    have hsp : (s.sp + 2).toNat ≤ s.config.memSize := by bv_omega
    exact (h.setSp hsp).of_same rfl rfl rfl rfl
  | popped o r _ ha =>
    have hsp : (s.sp + 1).toNat ≤ s.config.memSize := by bv_omega
    exact (h.setSp hsp).of_same rfl rfl rfl rfl

end

/-! ### Retiring, which writes `last` only (R39), and a step (R170) -/

section
variable (t : State) (i : Instr)

@[simp] theorem State.retire_config : (t.retire i).config = t.config := by rw [State.retire]; split <;> rfl
@[simp] theorem State.retire_pc : (t.retire i).pc = t.pc := by rw [State.retire]; split <;> rfl
@[simp] theorem State.retire_flags : (t.retire i).flags = t.flags := by rw [State.retire]; split <;> rfl
@[simp] theorem State.retire_runState : (t.retire i).runState = t.runState := by rw [State.retire]; split <;> rfl
@[simp] theorem State.retire_getReg (j : RegIdx) : (t.retire i).getReg j = t.getReg j := by
  rw [State.retire]; split <;> rfl

end

theorem State.Inv.retire {t : State} (h : t.Inv) {i : Instr} (hi : i.wf = true) : (t.retire i).Inv := by
  rw [State.retire]
  split
  · exact h
  · exact h.setLast hi

/-- Settles O44: a decode fault writes `pc` and the run state only; an execution keeps the invariant by
`Effect.keeps_inv`, and what it leaves in `last` has been decoded and so is well-formed. -/
theorem stepKeepsInvariant : Obligations.StepKeepsInvariant := by
  unfold Obligations.StepKeepsInvariant
  intro s t hinv h
  obtain ⟨-, rfl⟩ | ⟨-, k, n, -, rfl⟩ | ⟨-, i, n, u, hd, hu, rfl⟩ := step_cases h
  · exact ⟨hinv, rfl⟩
  · exact ⟨hinv.of_same rfl rfl rfl rfl, rfl⟩
  · have heff := exec_effect hu
    have hadv : (s.advancePc n).Inv := hinv.of_same rfl rfl rfl rfl
    obtain ⟨hwf, -⟩ := encodeOfDecode _ _ _ hd
    exact ⟨(Effect.keeps_inv hadv heff).retire hwf, (u.retire_config i).trans heff.frame.1⟩

/-! ### Reset (R41, R200) -/

/-- `MEM_SIZE` fits `sp`. -/
theorem State.initial_sp_toNat (config : Config) : (State.initial config).sp.toNat = config.memSize :=
  Nat.mod_eq_of_lt (Nat.lt_succ_of_le config.memSize_le)

@[simp] theorem State.initial_getReg (config : Config) (j : RegIdx) : (State.initial config).getReg j = 0 := by
  simp [State.getReg, State.initial]

theorem State.initial_inv (config : Config) : (State.initial config).Inv where
  mem_wf := Memory.wf_nil
  mem_bound := by simp [State.initial]
  sp_le := (State.initial_sp_toNat config).le
  last_wf := by simp [State.initial]

/-- Settles O45: the reset state of any size meets the invariant. -/
theorem resetMeetsInvariant : Obligations.ResetMeetsInvariant := State.initial_inv Config.default

/-- Settles O47: each field of `State.initial` at the default size. -/
theorem resetValues : Obligations.ResetValues := by
  unfold Obligations.ResetValues
  refine ⟨rfl, rfl, State.initial_sp_toNat Config.default, rfl, fun j => ?_, rfl, rfl, rfl, fun _ => rfl⟩
  exact congrArg BitVec.toNat (State.initial_getReg Config.default j)

/-! ### Construction from an image (R200, R202) -/

section
variable {config : Config} {image : List Byte} (hlen : image.length = config.memSize)
include hlen

theorem State.construct_mem : (State.construct config image).mem = Memory.writeBytes [] 0 image := by
  rw [State.construct, State.setMem_mem, Memory.ofImage, ← hlen, List.take_length]

theorem State.read_construct (k : Nat) (hk : k < image.length) :
    Memory.read (State.construct config image).mem k = image[k] := by
  rw [State.construct_mem hlen, Memory.read_writeBytes, if_pos (Nat.zero_le k), Nat.sub_zero, List.getD_eq_getElem]

theorem State.construct_inv : (State.construct config image).Inv where
  mem_wf := State.wf_construct config image
  mem_bound := by
    rw [State.construct_mem hlen]
    exact Memory.bound_writeBytes image (by simp) ((Nat.zero_add _).trans hlen).le
  sp_le := (State.initial_inv config).sp_le
  last_wf := (State.initial_inv config).last_wf

end

/-- Settles O46: construction writes the image to memory from address 0 up, and nothing but memory differs from the
reset state. -/
theorem constructLoadsImage : Obligations.ConstructLoadsImage := by
  unfold Obligations.ConstructLoadsImage
  intro config image hlen
  exact ⟨State.read_construct hlen, rfl, rfl, State.initial_sp_toNat config, rfl, State.initial_getReg config, rfl,
    rfl, rfl, State.construct_inv hlen⟩

/-- A fetch reads up to three bytes, ending at `MEM_SIZE` (R54, R80). -/
theorem State.length_fetchBytes (s : State) : s.fetchBytes.length = min 3 (s.config.memSize - s.pc.toNat) :=
  s.length_bytesFrom _ 3

/-- Byte `k` of a fetch is the byte at `pc + k`. -/
theorem State.getElem_fetchBytes (s : State) (k : Nat) (h : k < s.fetchBytes.length) :
    s.fetchBytes[k] = Memory.read s.mem (s.pc.toNat + k) :=
  s.getElem_bytesFrom _ 3 k h

/-- Settles O48: a fetch at `pc` 0 reads the addresses 0, 1 and 2, as many as lie in memory, and these hold the
image. -/
theorem firstFetchIsAtAddressZero : Obligations.FirstFetchIsAtAddressZero := by
  unfold Obligations.FirstFetchIsAtAddressZero
  intro config image hlen
  have hpc : (State.construct config image).pc.toNat = 0 := rfl
  refine List.ext_getElem ?_ fun k hk hk' => ?_
  · rw [State.length_fetchBytes, hpc, List.length_take, hlen]
    rfl
  · rw [State.getElem_fetchBytes, hpc, Nat.zero_add, List.getElem_take, State.read_construct hlen]

end Sys2Proof.Machine
end

section
/-! PROOFS. Arithmetic and shifts: MUL, DIV, INC, DEC (41_arithmetic.md), what carry amounts to after each
arithmetic instruction, and SHL and SHR (42_logic.md section 3). -/

namespace Sys2Proof.Machine

/-! ### The numbers the instructions compute -/

section
variable (w : Word) (d : Byte)

theorem mul_zext16_toNat : (w * zext16 d).toNat = w.toNat * d.toNat % 65536 := by
  rw [BitVec.toNat_mul, zext16_toNat]

theorem div_zext16_toNat : (w / zext16 d).toNat = w.toNat / d.toNat := by
  rw [BitVec.toNat_udiv, zext16_toNat]

theorem inc_toNat : (w + 1).toNat = (w.toNat + 1) % 65536 := BitVec.toNat_add w 1

theorem dec_toNat : (w - 1).toNat = (w.toNat + 65535) % 65536 := by
  rw [BitVec.toNat_sub, Nat.add_comm]
  rfl

theorem shl16_toNat : (shl16 w d).toNat = w.toNat * 2 ^ d.toNat % 65536 := by
  rw [shl16, BitVec.toNat_shiftLeft, Nat.shiftLeft_eq]

theorem shr16_toNat : (shr16 w d).toNat = w.toNat / 2 ^ d.toNat := by
  rw [shr16, BitVec.toNat_ushiftRight, Nat.shiftRight_eq_div_pow]

end

/-! ### MUL and DIV (R133, R134) -/

/-- Settles O6: MUL is the sub-type write of `x[reg1] * zext_16(data)`, when there is a data byte. -/
theorem mulKeepsLowHalf : Obligations.MulKeepsLowHalf := by
  unfold Obligations.MulKeepsLowHalf
  refine fun o s => ⟨fun d hd => ?_, State.withData_none⟩
  exact ⟨_, State.withData_some hd, s.regResult_writeSubType o.reg1 (mul_zext16_toNat _ d)⟩

section
variable {o : Operands} {s : State} {d : Byte} (hd : o.data = some d)
include hd

theorem exec_div_of_ne_zero (h : d ≠ 0) :
    exec (.div o) s = .next (s.writeSubType o.reg1 (s.getReg o.reg1 / zext16 d)) := by
  rw [exec, execDiv, State.withData_some hd, if_neg h]

theorem exec_div_of_zero (h : d = 0) : exec (.div o) s = .next (s.setRunState (.faulted .divideByZero)) := by
  rw [exec, execDiv, State.withData_some hd, if_pos h, State.raise_eq]

end

/-- Settles O7: DIV by a nonzero byte is the sub-type write of the quotient, which never exceeds the old value. -/
theorem divWritesQuotientOrFaults : Obligations.DivWritesQuotientOrFaults := by
  unfold Obligations.DivWritesQuotientOrFaults
  refine fun o s => ⟨fun d hd => ⟨fun hne => ?quotient, fun hz => ?fault⟩, State.withData_none⟩
  case quotient =>
    have hd0 : d ≠ 0 := by rintro rfl; exact hne rfl
    have hco : decide ((s.getReg o.reg1).toNat / d.toNat > (s.getReg o.reg1).toNat) = false :=
      decide_eq_false (Nat.div_le_self _ _).not_gt
    have hres := s.regResult_writeSubType o.reg1 (div_zext16_toNat (s.getReg o.reg1) d)
    rw [hco] at hres
    exact ⟨_, exec_div_of_ne_zero hd hd0, hres⟩
  case fault => exact exec_div_of_zero hd (BitVec.eq_of_toNat_eq hz)

/-! ### INC and DEC (R135, R136) -/

/-- Settles O8: INC is an add-type and DEC a sub-type write in every mode; a result below the old value after INC,
or above it after DEC, is a wrap. -/
theorem incAndDecCountByOne : Obligations.IncAndDecCountByOne := by
  unfold Obligations.IncAndDecCountByOne
  intro o s
  have hlt := (s.getReg o.reg1).isLt
  refine ⟨⟨_, rfl, ?inc⟩, ⟨_, rfl, ?dec⟩⟩
  case inc =>
    have hwrap : decide (((s.getReg o.reg1).toNat + 1) % 65536 < (s.getReg o.reg1).toNat) =
        decide ((s.getReg o.reg1).toNat = 65535) := decide_eq_decide.mpr (by omega)
    have hres := s.regResult_writeAddType o.reg1 (inc_toNat (s.getReg o.reg1))
    rwa [hwrap] at hres
  case dec =>
    have hwrap : decide (((s.getReg o.reg1).toNat + 65535) % 65536 > (s.getReg o.reg1).toNat) =
        decide ((s.getReg o.reg1).toNat = 0) := decide_eq_decide.mpr (by omega)
    have hres := s.regResult_writeSubType o.reg1 (dec_toNat (s.getReg o.reg1))
    rwa [hwrap] at hres

/-! ### What carry amounts to (R137) -/

theorem State.RegResult.flags_eq {s t : State} {r : RegIdx} {v : Nat} {f : Flags} (h : s.RegResult t r v f) :
    t.flags = f := by
  obtain ⟨-, -, -, ht⟩ := h
  rw [ht]

/-- Settles O9: the carry of each instruction's own statement, restated by arithmetic: a sum below 2^16 is not
below the old value, and a wrapped difference exceeds the old value exactly on a borrow. -/
theorem carryMeaningPerArithmeticOpcode : Obligations.CarryMeaningPerArithmeticOpcode := by
  unfold Obligations.CarryMeaningPerArithmeticOpcode
  intro o s d hd
  have hold := (s.getReg o.reg1).isLt
  have hbyte := d.isLt
  refine ⟨?add, ?sub, ?mul, fun hne => ?div⟩
  case add =>
    obtain ⟨t, ht, hres⟩ := (addWrapsModulo65536 o s).1 d hd
    refine ⟨t, ht, ?_⟩
    rw [hres.flags_eq, decide_eq_true_iff]
    exact ⟨rfl, by omega⟩
  case sub =>
    obtain ⟨t, ht, hres⟩ := (subWrapsModulo65536 o s).1 d hd
    refine ⟨t, ht, ?_⟩
    rw [hres.flags_eq, decide_eq_true_iff]
    exact ⟨rfl, by omega⟩
  case mul =>
    obtain ⟨t, ht, hres⟩ := (mulKeepsLowHalf o s).1 d hd
    refine ⟨t, ht, ?_⟩
    rw [hres.flags_eq, decide_eq_true_iff]
    exact ⟨rfl, Iff.rfl⟩
  case div =>
    obtain ⟨t, ht, hres⟩ := ((divWritesQuotientOrFaults o s).1 d hd).1 hne
    refine ⟨t, ht, ?_⟩
    rw [hres.flags_eq]
    exact ⟨rfl, rfl⟩

/-! ### SHL and SHR (R145 to R147) -/

/-- Settles O12: both are logic writes; a shift of a bit vector by any count is the multiplication or division by
the power of two. -/
theorem shiftsAreLogicalAndUnreduced : Obligations.ShiftsAreLogicalAndUnreduced := by
  unfold Obligations.ShiftsAreLogicalAndUnreduced
  refine fun o s => ⟨fun d hd => ⟨?shl, ?shr⟩, fun hd => ⟨State.withData_none hd, State.withData_none hd⟩⟩
  case shl => exact ⟨_, State.withData_some hd, s.regResult_writeLogic_decide o.reg1 (shl16_toNat _ d)⟩
  case shr => exact ⟨_, State.withData_some hd, s.regResult_writeLogic_decide o.reg1 (shr16_toNat _ d)⟩

end Sys2Proof.Machine
end

section
/-! PROOFS. RET and POP (43_control_flow.md section 3, 44_stack.md): what they answer with and without bytes on the
stack, and that they undo CALL and PUSH. -/

namespace Sys2Proof.Machine

/-! ### RET (R156) -/

/-- The word of two bytes, high byte first. -/
theorem wordOfBytes_eq_ofNat (hi lo : Byte) : wordOfBytes hi lo = BitVec.ofNat 16 (hi.toNat * 256 + lo.toNat) := by
  rw [← wordOfBytes_toNat, BitVec.ofNat_toNat, BitVec.setWidth_eq]

section
variable (o : Operands) {s : State}

/-- RET with both bytes in memory. -/
theorem exec_ret_of_bytes (h1 : s.sp.toNat < s.config.memSize) (h2 : (s.sp + 1).toNat < s.config.memSize) :
    exec (.ret o) s = .next ((s.setSp (s.sp + 2)).setPc
      (wordOfBytes (Memory.read s.mem s.sp.toNat) (Memory.read s.mem (s.sp + 1).toNat))) := by
  have e : s.sp + 1 + 1 = s.sp + 2 := by bv_omega
  have hpop1 : s.popByte = some (Memory.read s.mem s.sp.toNat, s.setSp (s.sp + 1)) :=
    State.popByte_eq_some_iff.mpr ⟨h1, rfl, rfl⟩
  have hpop2 : (s.setSp (s.sp + 1)).popByte =
      some (Memory.read s.mem (s.sp + 1).toNat, (s.setSp (s.sp + 1)).setSp (s.sp + 1 + 1)) :=
    State.popByte_eq_some_iff.mpr ⟨h2, rfl, rfl⟩
  rw [exec, execRet, hpop1, Option.bind_some]
  dsimp only
  rw [hpop2, e]
  rfl

/-- RET when a byte would lie outside memory: neither pop is kept. -/
theorem exec_ret_of_no_bytes (h : s.config.memSize ≤ s.sp.toNat ∨ s.config.memSize ≤ (s.sp + 1).toNat) :
    exec (.ret o) s = .next (s.setRunState (.faulted .memoryFault)) := by
  rw [exec, execRet, State.orMemoryFault_eq_next_iff]
  refine .inr ⟨?_, rfl⟩
  rw [Option.bind_eq_none_iff]
  rintro ⟨v, t⟩ hpop
  obtain ⟨h1, -, rfl⟩ := State.popByte_eq_some_iff.mp hpop
  rw [Option.map_eq_none_iff, State.popByte_eq_none_iff]
  exact h.resolve_left h1.not_ge

end

/-- Settles O15: RET's two pops succeed or fail together. -/
theorem retPopsReturnAddress : Obligations.RetPopsReturnAddress := by
  unfold Obligations.RetPopsReturnAddress
  refine fun o s => ⟨fun h1 h2 => ?_, exec_ret_of_no_bytes o⟩
  rw [exec_ret_of_bytes o h1 h2, wordOfBytes_eq_ofNat]
  rfl

/-- Settles O16: the frame CALL leaves has the high byte of the return address at `sp` and the low byte above it,
which is the order in which RET pops them. -/
theorem retUndoesCall : Obligations.RetUndoesCall := by
  unfold Obligations.RetUndoesCall
  intro o o' d s hd hlow hhigh
  have hsize := s.config.memSize_le
  have h1 : (s.sp - 1).toNat < s.config.memSize := by bv_omega
  have h2 : (s.sp - 2).toNat < s.config.memSize := by bv_omega
  have hadd1 : s.sp - 2 + 1 = s.sp - 1 := by bv_omega
  have hadd2 : s.sp - 2 + 2 = s.sp := by bv_omega
  have hnext : (s.sp - 2).toNat + 1 = (s.sp - 1).toNat := by bv_omega
  refine ⟨_, exec_call_of_room hd h1 h2, fun w hconfig hsp hhi hlo => ?_⟩
  replace hconfig : w.config = s.config := hconfig
  replace hsp : w.sp = s.sp - 2 := hsp
  replace hhi : Memory.read w.mem (s.sp - 2).toNat = highByte s.pc := hhi.trans s.read_callMem_high
  replace hlo : Memory.read w.mem (s.sp - 1).toNat = lowByte s.pc := by
    rw [← hnext]
    exact hlo.trans (by rw [← s.read_callMem_low, ← hnext]; rfl)
  have hsp1 : w.sp + 1 = s.sp - 1 := by rw [hsp, hadd1]
  have hsp2 : w.sp + 2 = s.sp := by rw [hsp, hadd2]
  rw [exec_ret_of_bytes o' (by rwa [hsp, hconfig]) (by rwa [hsp1, hconfig]), hsp2, hsp1, hsp, hhi, hlo,
    wordOfBytes_high_low]
  rfl

/-! ### POP (R161) -/

section
variable (o : Operands) {s : State}

/-- POP with a byte on the stack. -/
theorem exec_pop_of_byte (h : s.sp.toNat < s.config.memSize) :
    exec (.pop o) s =
      .next ((s.setSp (s.sp + 1)).writeLoaded o.reg1 (zext16 (Memory.read s.mem s.sp.toNat))) := by
  rw [exec, execPop, State.popByte_eq_some_iff.mpr ⟨h, rfl, rfl⟩]
  rfl

/-- POP of an empty stack: `sp` does not move. -/
theorem exec_pop_of_empty (h : s.config.memSize ≤ s.sp.toNat) :
    exec (.pop o) s = .next (s.setRunState (.faulted .memoryFault)) := by
  rw [exec, execPop, State.popByte_eq_none_iff.mpr h]
  rfl

end

/-- Settles O18: after the move of `sp`, POP is the write of a loaded byte. -/
theorem popLoadsByteAtSp : Obligations.PopLoadsByteAtSp := by
  unfold Obligations.PopLoadsByteAtSp
  refine fun o s => ⟨fun h => ?_, exec_pop_of_empty o⟩
  have hframe := (s.setSp (s.sp + 1)).regResult_writeLoaded o.reg1 (zext16 (Memory.read s.mem s.sp.toNat))
  rw [zext16_toNat] at hframe
  exact ⟨_, exec_pop_of_byte o h, hframe⟩

/-- Settles O19: POP reads at the address that PUSH has written, and adds what PUSH has subtracted. -/
theorem popUndoesPush : Obligations.PopUndoesPush := by
  unfold Obligations.PopUndoesPush
  intro o o' d s p l hd hlow hhigh
  have hsp : (s.sp - 1).toNat = s.sp.toNat - 1 := sp_pred_toNat hlow
  have hroom : (s.sp - 1).toNat < s.config.memSize := by omega
  refine ⟨_, _, exec_push_of_room hd hroom, exec_pop_of_byte o' hroom, ?sp, ?popped, fun j hj => ?reg,
    fun a ha => ?mem⟩
  case sp => exact BitVec.sub_add_cancel s.sp 1
  case popped =>
    rw [State.writeLoaded_getReg, if_pos rfl, zext16_toNat]
    exact congrArg BitVec.toNat (Memory.read_write_same ..)
  case reg =>
    rw [State.writeLoaded_getReg, if_neg hj]
    rfl
  case mem => exact Memory.read_write_other _ d (hsp ▸ ha)

end Sys2Proof.Machine
end

section
/-! PROOFS. Operand forms (30_encoding.md section 5): the data-requiring operations all have the form of `withData`,
and which fields the other operations look at. -/

namespace Sys2Proof.Machine

/-! ### The operand fields an operation looks at (R93 to R98) -/

/-- A data-requiring operation looks at `reg1` and the data byte only, and at `reg1` only when there is a data
byte: it is the operation with the other two fields at zero, under `withData`. -/
theorem exec_of_dataRequiring {mk : Operands → Instr} (hmk : mk ∈ dataRequiring) (o : Operands) (s : State) :
    exec (mk o) s = s.withData o fun d => exec (mk ⟨.immediate, o.reg1, 0, some d⟩) s := by
  simp only [dataRequiring, List.mem_cons, List.not_mem_nil, or_false] at hmk
  obtain rfl | rfl | rfl | rfl | rfl | rfl | rfl | rfl | rfl | rfl | rfl | rfl | rfl | rfl | rfl | rfl | rfl | rfl :=
    hmk <;> rfl

/-- `withData` looks at the data byte only. -/
theorem State.withData_congr {o o' : Operands} (h : o.data = o'.data) (s : State)
    (k : Byte → Host.Outcome State Fault Refusal) : s.withData o k = s.withData o' k := by
  rw [State.withData, h, State.withData]

section
variable {o o' : Operands} (s : State) {mk : Operands → Instr}

theorem exec_congr_of_dataRequiring (hmk : mk ∈ dataRequiring) (h1 : o.reg1 = o'.reg1) (hd : o.data = o'.data) :
    exec (mk o) s = exec (mk o') s := by
  rw [exec_of_dataRequiring hmk, exec_of_dataRequiring hmk, h1]
  exact State.withData_congr hd s _

theorem exec_congr_of_reg1Ignoring (hmk : mk ∈ reg1Ignoring) (hd : o.data = o'.data) :
    exec (mk o) s = exec (mk o') s := by
  simp only [reg1Ignoring, List.mem_cons, List.not_mem_nil, or_false] at hmk
  obtain rfl | rfl | rfl | rfl | rfl | rfl | rfl | rfl | rfl := hmk
  iterate 5 exact State.withData_congr hd s _ -- the four jumps and CALL
  · rfl -- RET
  · exact State.withData_congr hd s _ -- PUSH
  · rfl -- NOP
  · rfl -- HALT

theorem exec_congr_of_dataIgnoring (hmk : mk ∈ dataIgnoring) (hswap : ∀ q, mk q ≠ .swap q) (h1 : o.reg1 = o'.reg1) :
    exec (mk o) s = exec (mk o') s := by
  simp only [dataIgnoring, List.mem_cons, List.not_mem_nil, or_false] at hmk
  obtain rfl | rfl | rfl | rfl | rfl | rfl | rfl | rfl := hmk
  · exact absurd rfl (hswap o)
  all_goals simp only [exec, execInc, execDec, execNot, execRet, execPop, execNop, execHalt, h1]

theorem exec_swap_congr (h1 : o.reg1 = o'.reg1) (h2 : o.reg2 = o'.reg2) : exec (.swap o) s = exec (.swap o') s := by
  rw [exec, exec, execSwap, execSwap, h1, h2]

end

/-- Settles O22: `withData` without a data byte is the same state. -/
theorem missingDataIsNoOperation : Obligations.MissingDataIsNoOperation := by
  unfold Obligations.MissingDataIsNoOperation
  intro mk hmk o s hd
  rw [exec_of_dataRequiring hmk, State.withData_none hd]

/-- Settles O23, by the four lemmas on the classes of operations. -/
theorem executionIgnoresUnusedFields : Obligations.ExecutionIgnoresUnusedFields := by
  unfold Obligations.ExecutionIgnoresUnusedFields
  intro o o' s
  exact ⟨fun h1 hd mk hmk => exec_congr_of_dataRequiring s hmk h1 hd,
    fun hd mk hmk => exec_congr_of_reg1Ignoring s hmk hd,
    fun h1 mk hmk hswap => exec_congr_of_dataIgnoring s hmk hswap h1, exec_swap_congr s⟩

end Sys2Proof.Machine
end

section
/-! PROOFS. Execute faults, run states and runs (60_exceptions.md): what an instruction does to the run state, when
each memory access faults, that a step is total, and how runs end. -/

namespace Sys2Proof.Machine

/-! ### What an instruction does to the run state (R172, R180, R181) -/

/-- The kinds of fault that an executing instruction can raise, and the instructions that raise them. -/
def ExecuteFault (i : Instr) (k : FaultKind) : Prop :=
  (k = .memoryFault ∧ ∃ o, i = .store o ∨ i = .push o ∨ i = .pop o ∨ i = .call o ∨ i = .ret o) ∨
  (k = .divideByZero ∧ ∃ o, i = .div o ∧ o.data = some 0)

/-- Only a fault and HALT write the run state, and they write nothing else. -/
theorem Effect.runState_cases {i : Instr} {s t : State} (h : Effect i s t) :
    t.runState = s.runState ∨ (∃ k, ExecuteFault i k ∧ t = s.setRunState (.faulted k)) ∨
      ((∃ o, i = .halt o) ∧ t = s.setRunState .halted) := by
  cases h with
  | faulted k hk => exact .inr (.inl ⟨k, hk, rfl⟩)
  | halted o hi => exact .inr (.inr ⟨⟨o, hi⟩, rfl⟩)
  | unchanged | loaded | stored | swapped | addType | subType | logic | jumped | called | returned | pushed | popped =>
    exact .inl rfl

/-- Settles O38: of the three things an instruction can do to the run state, only the fault ends a running core in
a fault. -/
theorem executeFaultCommitsNothing : Obligations.ExecuteFaultCommitsNothing := by
  unfold Obligations.ExecuteFaultCommitsNothing
  intro i s t k hr h hf
  obtain hsame | ⟨k', hk, rfl⟩ | ⟨-, rfl⟩ := (exec_effect h).runState_cases
  · rw [hsame, hr] at hf
    cases hf
  · obtain rfl : k' = k := RunState.faulted.inj hf
    exact ⟨rfl, hk⟩
  · cases hf

/-! ### When a memory access faults (R180) -/

/-- An instruction that either leaves a running core running or raises `MemoryFault` does the latter exactly when
it is not in the first case. -/
theorem exec_eq_memoryFault_iff {i : Instr} {s : State} {p : Prop} (hr : s.runState = .running)
    (hfault : p → exec i s = .next (s.setRunState (.faulted .memoryFault)))
    (hrun : ¬ p → ∃ t, exec i s = .next t ∧ t.runState = s.runState) :
    exec i s = .next { s with runState := .faulted .memoryFault } ↔ p := by
  refine ⟨fun h => by_contra fun hp => ?_, hfault⟩
  obtain ⟨t, ht, hsame⟩ := hrun hp
  cases ht.symm.trans h
  rw [hr] at hsame
  cases hsame

/-- Settles O37: with `sp` at most `MEM_SIZE`, the bounds checks of PUSH and CALL fail exactly where `sp - 1` and
`sp - 2` wrap, and those of POP and RET exactly at the end of memory. -/
theorem memoryFaultExactlyWhen : Obligations.MemoryFaultExactlyWhen := by
  unfold Obligations.MemoryFaultExactlyWhen
  intro s o d hr hsp
  have hsize := s.config.memSize_le
  refine ⟨fun hd => ⟨?store, ?push, ?call⟩, ?pop, ?ret⟩
  case store =>
    exact exec_eq_memoryFault_iff hr (exec_store_of_ge hd) fun hp => ⟨_, exec_store_of_lt hd (not_le.mp hp), rfl⟩
  case push =>
    refine exec_eq_memoryFault_iff hr (fun hp => exec_push_of_no_room hd ?_)
      fun hp => ⟨_, exec_push_of_room hd ?_, rfl⟩
    · bv_omega
    · bv_omega
  case call =>
    refine exec_eq_memoryFault_iff hr (fun hp => exec_call_of_no_room hd ?_)
      fun hp => ⟨_, exec_call_of_room hd ?_ ?_, rfl⟩
    · bv_omega
    · bv_omega
    · bv_omega
  case pop =>
    exact exec_eq_memoryFault_iff hr (fun hp => exec_pop_of_empty o hp.ge)
      fun hp => ⟨_, exec_pop_of_byte o (lt_of_le_of_ne hsp hp), rfl⟩
  case ret =>
    refine exec_eq_memoryFault_iff hr (fun hp => exec_ret_of_no_bytes o ?_)
      fun hp => ⟨_, exec_ret_of_bytes o ?_ ?_, rfl⟩
    · bv_omega
    · omega
    · bv_omega

/-! ### A step is total, and its run states (R170, R172) -/

/-- Equal cores are congruent. That a congruence relates next states only is the totality of a step. -/
theorem congruence_eq : Congruence (fun _ => True) (· = ·) := by
  constructor <;> intros <;> subst_vars <;> rfl

/-- Settles O39: a step of a core and of the same core ends in next states, as every step of two congruent cores
does. -/
theorem stepAlwaysAnswersNext : Obligations.StepAlwaysAnswersNext := by
  unfold Obligations.StepAlwaysAnswersNext
  intro s
  obtain ⟨t, -, ht, -⟩ := congruence_eq.step (s := s) (fun _ _ => trivial) rfl rfl rfl
  exact ⟨t, ht⟩

/-- A cycle that decodes an instruction executes it, and retires what that answers. -/
theorem step_eq_retire {s t : State} {i : Instr} {n : Nat} (hr : s.runState = .running)
    (hd : decode s.fetchBytes = .ok i n) (h : step s = .next t) :
    ∃ u, exec i (s.advancePc n) = .next u ∧ t = u.retire i := by
  obtain ⟨hne, -⟩ | ⟨-, k, m, hd', -⟩ | ⟨-, j, m, u, hd', hu, ht⟩ := step_cases h
  · exact absurd hr hne
  · rw [hd] at hd'
    cases hd'
  · rw [hd] at hd'
    cases hd'
    exact ⟨u, hu, ht⟩

/-- Settles O40: retiring leaves the run state as the execution left it, and HALT's execution is one write of it. -/
theorem runStateMachine : Obligations.RunStateMachine := by
  unfold Obligations.RunStateMachine
  refine fun s t hr h => ⟨fun k n hd => ?fault, fun i n hd => ?ok⟩
  case fault =>
    rw [step_of_decode_fault hr hd] at h
    cases h
    rfl
  case ok =>
    obtain ⟨u, hu, rfl⟩ := step_eq_retire hr hd h
    rw [State.retire_runState]
    refine ⟨?_, fun hne => ?_⟩
    · rintro ⟨o, rfl⟩
      cases hu
      rfl
    · obtain hsame | ⟨k, hk, rfl⟩ | ⟨⟨o, rfl⟩, -⟩ := (exec_effect hu).runState_cases
      · exact .inl (hsame.trans hr)
      · obtain ⟨rfl, -⟩ | ⟨rfl, -⟩ := hk
        · exact .inr (.inl rfl)
        · exact .inr (.inr rfl)
      · exact absurd rfl (hne o)

/-! ### Runs (R171, R173, R206) -/

/-- The run of any machine of the host, one step at a time. -/
theorem hostRun_succ (M : Host.Core) {s t : M.State} (h : M.step s = .next t) (n : Nat) :
    M.run (n + 1) s = M.run n t := by
  rw [Host.Core.run, h]

theorem core_run_of_ended {s : State} (h : s.Ended) (n : Nat) : Sys2Proof.core.run n s = .next s := by
  induction n with
  | zero => rfl
  | succ n ih => exact (hostRun_succ Sys2Proof.core (step_of_ended h) n).trans ih

/-- Settles O41: a step of an ended core answers it unchanged, and so a run does. -/
theorem terminalStatesStay : Obligations.TerminalStatesStay := by
  unfold Obligations.TerminalStatesStay
  exact fun s h => ⟨step_of_ended h, core_run_of_ended h⟩

/-- The run loop stops at once in a terminal state, and otherwise goes one step (R171). -/
theorem runLoop_of_ended {s : State} (h : s.Ended) (n : Nat) : runLoop n s = .next s := by
  cases n with
  | zero => rfl
  | succ n =>
    rw [runLoop]
    split
    · rfl
    · rfl
    · rename_i hr
      exact absurd hr h

theorem runLoop_succ_of_running {s t : State} (hr : s.runState = .running) (h : step s = .next t) (n : Nat) :
    runLoop (n + 1) s = runLoop n t := by
  simp [runLoop, hr, h]

/-- Settles O42: by induction on the cycles; where the loop stops, the host's run stays. -/
theorem runLoopIsHostRun : Obligations.RunLoopIsHostRun := by
  unfold Obligations.RunLoopIsHostRun
  intro n
  induction n with
  | zero => exact fun s => rfl
  | succ n ih =>
    intro s
    by_cases hr : s.runState = .running
    · obtain ⟨t, ht⟩ := stepAlwaysAnswersNext s
      rw [runLoop_succ_of_running hr ht, ih]
      exact (hostRun_succ Sys2Proof.core ht n).symm
    · exact (runLoop_of_ended hr _).trans (core_run_of_ended hr _).symm

/-- A run that has ended is the same run with any number of cycles more. -/
theorem runLoop_add_of_ended {n : Nat} {s t : State} (h : runLoop n s = .next t) (ht : t.Ended) (k : Nat) :
    runLoop (n + k) s = .next t := by
  induction n generalizing s with
  | zero =>
    cases h
    exact runLoop_of_ended ht _
  | succ n ih =>
    rw [Nat.succ_add]
    by_cases hr : s.runState = .running
    · obtain ⟨u, hu⟩ := stepAlwaysAnswersNext s
      rw [runLoop_succ_of_running hr hu] at h ⊢
      exact ih h
    · rw [runLoop_of_ended hr] at h ⊢
      exact h

/-- Settles O43: of two runs that have ended, the longer one is the shorter one with more cycles. -/
theorem endOfRunIsUnique : Obligations.EndOfRunIsUnique := by
  unfold Obligations.EndOfRunIsUnique
  intro n m s t u hn hm ht hu
  obtain ⟨k, rfl⟩ | ⟨k, rfl⟩ := (le_total n m).imp Nat.exists_eq_add_of_le Nat.exists_eq_add_of_le
  · exact Host.Outcome.next.inj ((runLoop_add_of_ended hn ht k).symm.trans hm)
  · exact Host.Outcome.next.inj (hn.symm.trans (runLoop_add_of_ended hm hu k))

end Sys2Proof.Machine
end

section
/-! PROOFS. Fetching what memory holds (20_memory.md sections 1 and 8, 30_encoding.md section 1): an instruction
stored at `pc` is the one a step runs, a byte stored is a byte fetched, and how far a cycle moves `pc`. -/

namespace Sys2Proof.Machine

/-! ### What a fetch reads (R54, R80) -/

/-- A byte below `MEM_SIZE` within three of `pc` is fetched. -/
theorem State.getElem?_fetchBytes {s : State} {k : Nat} (hk : k < 3) (h : s.pc.toNat + k < s.config.memSize) :
    s.fetchBytes[k]? = some (Memory.read s.mem (s.pc.toNat + k)) := by
  have hlen := s.length_fetchBytes
  rw [List.getElem?_eq_getElem (by omega), State.getElem_fetchBytes]

/-- An instruction has two or three bytes (R80). -/
theorem length_encode_eq_two_or_three {i : Instr} (h : i.wf = true) :
    (encode i).length = 2 ∨ (encode i).length = 3 := by
  obtain ⟨-, -, -, hn⟩ := encodeOfDecode _ _ _ (decodeOfEncode i [] h)
  exact hn

/-- Bytes of memory at `pc` that are an encoding are what a fetch begins with. -/
theorem State.fetchBytes_take_of_stored {i : Instr} {s : State} (hwf : i.wf = true)
    (hfit : s.pc.toNat + (encode i).length ≤ s.config.memSize)
    (hmem : ∀ k (h : k < (encode i).length), Memory.read s.mem (s.pc.toNat + k) = (encode i)[k]) :
    s.fetchBytes.take (encode i).length = encode i := by
  have hlen := length_encode_eq_two_or_three hwf
  have hfetch := s.length_fetchBytes
  refine List.ext_getElem (by rw [List.length_take]; omega) fun k hk hk' => ?_
  rw [List.getElem_take, State.getElem_fetchBytes, hmem k hk']

/-- Settles O31: the fetch begins with the encoding, which decodes to the instruction whatever bytes follow, and a
step runs what the fetch decodes to. -/
theorem stepRunsInstructionStoredAtPc : Obligations.StepRunsInstructionStoredAtPc := by
  unfold Obligations.StepRunsInstructionStoredAtPc
  intro i s t hwf hr hfit hmem he
  have hd : decode s.fetchBytes = .ok i (encode i).length := by
    rw [← List.take_append_drop (encode i).length s.fetchBytes, State.fetchBytes_take_of_stored hwf hfit hmem]
    exact decodeOfEncode i _ hwf
  rw [← State.pc_add_eq_ofNat rfl] at he
  exact (stepRunsDecodedInstruction s hr).2 i _ t hd he

/-! ### A byte stored (R64) -/

/-- Settles O59: the byte is written to the address that is fetched from, and a fetch reads memory as it is. -/
theorem storedByteIsFetched : Obligations.StoredByteIsFetched := by
  unfold Obligations.StoredByteIsFetched
  intro o s d p k hd hk
  refine ⟨fun ha hp => ⟨_, exec_store_of_lt hd ha, ?store⟩, fun ha hp => ⟨_, exec_push_of_room hd ha, ?push⟩⟩
  case store =>
    rw [State.getElem?_fetchBytes hk (hp ▸ ha), hp]
    exact congrArg some (Memory.read_write_same ..)
  case push =>
    rw [State.getElem?_fetchBytes hk (hp ▸ ha), hp]
    exact congrArg some (Memory.read_write_same ..)

/-! ### The advance of `pc` (R24, R25) -/

/-- Only jumps, CALL and RET write `pc`. -/
theorem Effect.pc_cases {i : Instr} {s t : State} (h : Effect i s t) :
    t.pc = s.pc ∨ ∃ o, i = .jmp o ∨ i = .jz o ∨ i = .jnz o ∨ i = .jc o ∨ i = .call o ∨ i = .ret o := by
  cases h with
  | jumped o p hi => exact .inr ⟨o, by tauto⟩
  | called o lo hi p h => exact .inr ⟨o, by tauto⟩
  | returned o p hi => exact .inr ⟨o, by tauto⟩
  | unchanged | faulted | loaded | stored | swapped | addType | subType | logic | pushed | popped | halted =>
    exact .inl rfl

/-- A decoded instruction lies in memory, with all the bytes consumed. -/
theorem decode_fetchBytes_fits {s : State} {i : Instr} {n : Nat} (h : decode s.fetchBytes = .ok i n) :
    (encode i).length = n ∧ s.pc.toNat + n ≤ s.config.memSize := by
  obtain ⟨-, henc, hle, hn⟩ := encodeOfDecode _ _ _ h
  have hfetch := s.length_fetchBytes
  exact ⟨by rw [henc, List.length_take, Nat.min_eq_left hle], by omega⟩

/-- Settles O58: the decoder advances `pc` by the length of the instruction, which lies below `MEM_SIZE`, and
execution leaves `pc` there. -/
theorem sequentialPcAdvance : Obligations.SequentialPcAdvance := by
  unfold Obligations.SequentialPcAdvance
  intro s t i n hr hd hjump h
  obtain ⟨u, hu, rfl⟩ := step_eq_retire hr hd h
  obtain ⟨hlen, hfit⟩ := decode_fetchBytes_fits hd
  have hpc : u.pc = (s.advancePc n).pc := by
    refine (exec_effect hu).pc_cases.resolve_right ?_
    rintro ⟨o, ho⟩
    have := hjump o
    tauto
  rw [State.retire_pc, hpc, advancePc_toNat hfit, hlen]

end Sys2Proof.Machine
end

section
/-! PROOFS. Writers: which instructions write the flags, the registers, memory and `sp`, each by cases on the shapes
of `Effect`. -/

namespace Sys2Proof.Machine

/-- `i` is one of the operations listed, with its own operands. -/
def Among (i : Instr) (ops : List (Operands → Instr)) : Prop := ∃ mk ∈ ops, i = mk i.operands

section
variable {i : Instr} {mk : Operands → Instr} {ops : List (Operands → Instr)}

theorem Among.of_mem (hmk : mk ∈ ops) (hi : i = mk i.operands) : Among i ops := ⟨mk, hmk, hi⟩

theorem Among.append_left {ops' : List (Operands → Instr)} (h : Among i ops) : Among i (ops ++ ops') := by
  obtain ⟨mk, hmk, hi⟩ := h
  exact .of_mem (List.mem_append_left _ hmk) hi

theorem Among.append_right {ops' : List (Operands → Instr)} (h : Among i ops) : Among i (ops' ++ ops) := by
  obtain ⟨mk, hmk, hi⟩ := h
  exact .of_mem (List.mem_append_right _ hmk) hi

end

/-! ### The classes of the shapes of `Effect` that write a register -/

section
variable {i : Instr}

theorem among_loads (hi : i = .load i.operands ∨ i = .mov i.operands) :
    Among i [Instr.load, Instr.mov, Instr.pop] := by
  obtain hi | hi := hi <;> exact .of_mem (by simp) hi

theorem among_logicOps (hi : i = .and i.operands ∨ i = .or i.operands ∨ i = .xor i.operands ∨
    i = .not i.operands ∨ i = .shl i.operands ∨ i = .shr i.operands) : Among i logicOps := by
  obtain hi | hi | hi | hi | hi | hi := hi <;> exact .of_mem (by simp [logicOps]) hi

theorem among_arithmeticOps_of_addType (hi : i = .add i.operands ∨ i = .inc i.operands) :
    Among i arithmeticOps := by
  obtain hi | hi := hi <;> exact .of_mem (by simp [arithmeticOps]) hi

theorem among_arithmeticOps_of_subType (hi : i = .sub i.operands ∨ i = .mul i.operands ∨ i = .div i.operands ∨
    i = .dec i.operands) : Among i arithmeticOps := by
  obtain hi | hi | hi | hi := hi <;> exact .of_mem (by simp [arithmeticOps]) hi

theorem among_pop (o : Operands) : Among (.pop o) [Instr.load, Instr.mov, Instr.pop] :=
  .of_mem (by simp) rfl

end

/-! ### Flags (R35) -/

/-- The three ways in which an instruction writes the flag register, and which instructions do. -/
theorem Effect.flags_cases {i : Instr} {s t : State} (h : Effect i s t) :
    t.flags = s.flags ∨
    (Among i [Instr.load, Instr.mov, Instr.pop] ∧ ∃ r, t.flags = s.flags.withZero r) ∨
    (Among i logicOps ∧ ∃ r, t.flags = s.flags.withLogic r) ∨
    (Among i arithmeticOps ∧ ∃ r co, t.flags = s.flags.withArith r co) := by
  cases h with
  | unchanged | faulted | stored | swapped | jumped | called | returned | pushed | halted => exact .inl rfl
  | loaded r hi => exact .inr (.inl ⟨among_loads hi, r, rfl⟩)
  | popped o r hi => exact .inr (.inl ⟨hi ▸ among_pop o, r, rfl⟩)
  | logic r hi => exact .inr (.inr (.inl ⟨among_logicOps hi, r, rfl⟩))
  | addType r hi => exact .inr (.inr (.inr ⟨among_arithmeticOps_of_addType hi, r, _, rfl⟩))
  | subType r hi => exact .inr (.inr (.inr ⟨among_arithmeticOps_of_subType hi, r, _, rfl⟩))

/-- Settles O54: each way of writing the flag register leaves the flags of the other columns alone. -/
theorem flagWritersAreTheListedOnes : Obligations.FlagWritersAreTheListedOnes := by
  unfold Obligations.FlagWritersAreTheListedOnes
  intro i s t h
  obtain hf | ⟨hi, r, hf⟩ | ⟨hi, r, hf⟩ | ⟨hi, r, co, hf⟩ := (exec_effect h).flags_cases <;> rw [hf]
  · exact ⟨absurd rfl, absurd rfl, absurd rfl, absurd rfl, rfl⟩
  · exact ⟨fun _ => hi.append_right, absurd rfl, absurd rfl, absurd rfl, rfl⟩
  · exact ⟨fun _ => hi.append_right.append_left, fun _ => hi.append_right, absurd rfl, absurd rfl, rfl⟩
  · exact ⟨fun _ => hi.append_left.append_left, fun _ => hi.append_left, fun _ => hi, fun _ => hi, rfl⟩

/-! ### Registers (R21) -/

/-- A register that a write has changed is the one written. -/
theorem State.eq_of_getReg_setReg_ne {s : State} {a j : RegIdx} {v : Word}
    (h : (s.setReg a v).getReg j ≠ s.getReg j) : j = a :=
  by_contra fun hne => h (State.getReg_setReg_other s v hne)

/-- Settles O55: the shapes of `Effect` that write a register write `x[reg1]`, but for SWAP's, which writes both. -/
theorem registerWritersAreTheListedOnes : Obligations.RegisterWritersAreTheListedOnes := by
  unfold Obligations.RegisterWritersAreTheListedOnes
  intro i s t j h hne
  cases exec_effect h with
  | unchanged | faulted | stored | jumped | called | returned | pushed | halted => exact absurd rfl hne
  | loaded r hi => exact .inl ⟨(among_loads hi).append_right, State.eq_of_getReg_setReg_ne hne⟩
  | popped o r hi =>
    subst hi
    exact .inl ⟨(among_pop o).append_right, State.eq_of_getReg_setReg_ne hne⟩
  | logic r hi =>
    exact .inl ⟨(among_logicOps hi).append_right.append_left, State.eq_of_getReg_setReg_ne hne⟩
  | addType r hi =>
    exact .inl ⟨(among_arithmeticOps_of_addType hi).append_left.append_left, State.eq_of_getReg_setReg_ne hne⟩
  | subType r hi =>
    exact .inl ⟨(among_arithmeticOps_of_subType hi).append_left.append_left, State.eq_of_getReg_setReg_ne hne⟩
  | swapped o hi =>
    subst hi
    refine .inr ⟨rfl, ?_⟩
    by_cases h2 : j = o.reg2
    · exact .inr h2
    · rw [State.getReg_setReg_other _ _ h2] at hne
      exact .inl (State.eq_of_getReg_setReg_ne hne)

/-! ### Memory (R55) -/

/-- A byte that a write has changed is the one written. -/
theorem Memory.eq_of_read_write_ne {m : Memory} {a b : Nat} {v : Byte}
    (h : Memory.read (Memory.write m a v) b ≠ Memory.read m b) : b = a :=
  by_contra fun hne => h (Memory.read_write_other m v hne)

/-- Settles O56: three shapes of `Effect` write memory, each at the addresses that its bounds checks name. -/
theorem memoryWritersAreTheListedOnes : Obligations.MemoryWritersAreTheListedOnes := by
  unfold Obligations.MemoryWritersAreTheListedOnes
  intro i s t a h hne
  cases exec_effect h with
  | unchanged | faulted | loaded | swapped | addType | subType | logic | jumped | returned | popped | halted =>
    exact absurd rfl hne
  | stored o d hi => exact .inl ⟨o, hi, Memory.eq_of_read_write_ne hne⟩
  | pushed o d hi => exact .inr (.inl ⟨o, hi, Memory.eq_of_read_write_ne hne⟩)
  | called o lo hb p hi =>
    refine .inr (.inr ⟨o, hi, ?_⟩)
    by_cases h2 : a = (s.sp - 2).toNat
    · exact .inr h2
    · exact .inl (Memory.eq_of_read_write_ne ((Memory.read_write_other _ hb h2).symm.trans_ne hne))

end Sys2Proof.Machine
end

section
/-! PROOFS. What a step does not depend on: the interrupt flag, the register cell 7, `last`, and, for the other 22
instructions, `sp`. The first three are congruences (`Congruence.step`); `sp` is not one, since the stack
instructions read it. -/

namespace Sys2Proof.Machine

/-! ### The interrupt flag (R37) -/

/-- No step writes the interrupt flag: a decode fault leaves the flags, and no instruction writes this one. -/
theorem step_interrupt {s t : State} (h : step s = .next t) : t.flags.interrupt = s.flags.interrupt := by
  obtain ⟨-, rfl⟩ | ⟨-, k, n, -, rfl⟩ | ⟨-, i, n, u, -, hu, rfl⟩ := step_cases h
  · rfl
  · rfl
  · obtain ⟨-, -, -, -, hi⟩ := flagWritersAreTheListedOnes _ _ _ hu
    rw [State.retire_flags, hi]
    rfl

/-- Cores that are equal but for the interrupt flag are congruent: the flag rules pass the flag on. -/
theorem congruence_interrupt (b : Bool) :
    Congruence (fun _ => True) fun s t => t = { s with flags := { s.flags with interrupt := b } } := by
  constructor <;> intros <;> subst_vars <;> rfl

/-- Settles O50: `step_interrupt`, and a step of two cores that are equal but for the flag ends in such cores. -/
theorem interruptFlagIsNeverUsed : Obligations.InterruptFlagIsNeverUsed := by
  unfold Obligations.InterruptFlagIsNeverUsed
  intro s t b h
  refine ⟨step_interrupt h, ?_⟩
  obtain ⟨t', u, ht, hu, rfl⟩ := (congruence_interrupt b).step (s := s) (fun _ _ => trivial) rfl rfl rfl
  cases h.symm.trans ht
  exact hu

/-! ### The register cell 7 (R22) -/

/-- An addressable register is not the cell 7. -/
theorem RegIdx.ne_seven_of_addressable {j : RegIdx} (h : RegIdx.addressable j = true) : j ≠ 7 := by
  rintro rfl
  cases h

/-- No step writes the cell 7: a register that an instruction writes is one of the two it names. -/
theorem step_getReg_seven {s t : State} (h : step s = .next t) : t.getReg 7 = s.getReg 7 := by
  obtain ⟨-, rfl⟩ | ⟨-, k, n, -, rfl⟩ | ⟨-, i, n, u, hd, hu, rfl⟩ := step_cases h
  · rfl
  · rfl
  · obtain ⟨h1, h2⟩ := decode_ok_addressable hd
    have h17 := RegIdx.ne_seven_of_addressable h1
    have h27 := RegIdx.ne_seven_of_addressable h2
    rw [State.retire_getReg]
    by_contra hne
    obtain ⟨-, hj⟩ | ⟨-, hj | hj⟩ := registerWritersAreTheListedOnes _ _ _ _ hu hne
    · exact h17 hj.symm
    · exact h17 hj.symm
    · exact h27 hj.symm

/-- Writes to different cells commute. -/
theorem State.setReg_comm (s : State) {i j : RegIdx} (h : i ≠ j) (v w : Word) :
    (s.setReg i v).setReg j w = (s.setReg j w).setReg i v := by
  rw [State.setReg, State.setReg, State.setReg, State.setReg]
  exact congrArg (fun r => { s with regs := r }) (Vector.set_comm v w (Fin.val_ne_of_ne h))

/-- Cores that are equal but for the cell 7 are congruent on the addressable registers. -/
theorem congruence_register_seven (v : Word) :
    Congruence (fun j => RegIdx.addressable j = true) fun s t => t = s.setReg 7 v where
  config := by rintro _ _ rfl; rfl
  pc := by rintro _ _ rfl; rfl
  sp := by rintro _ _ rfl; rfl
  mem := by rintro _ _ rfl; rfl
  runState := by rintro _ _ rfl; rfl
  getReg := by
    rintro s _ j rfl hj
    exact s.getReg_setReg_other v (RegIdx.ne_seven_of_addressable hj)
  setReg w := by
    rintro rfl hj
    exact State.setReg_comm _ (RegIdx.ne_seven_of_addressable hj).symm v w
  setPc _ := by rintro rfl; rfl
  setSp _ := by rintro rfl; rfl
  setMem _ := by rintro rfl; rfl
  setRunState _ := by rintro rfl; rfl
  setLast _ := by rintro rfl; rfl
  withZero _ := by rintro rfl; rfl
  withLogic _ := by rintro rfl; rfl
  withArith _ _ := by rintro rfl; rfl

/-- Settles O51: `step_getReg_seven`, and a step of two cores that are equal but for the cell ends in such cores. -/
theorem registerCellSevenIsNeverUsed : Obligations.RegisterCellSevenIsNeverUsed := by
  unfold Obligations.RegisterCellSevenIsNeverUsed
  intro s t v h
  refine ⟨step_getReg_seven h, ?_⟩
  obtain ⟨t', u, ht, hu, rfl⟩ := (congruence_register_seven v).step (s := s) (fun _ hj => hj) rfl rfl rfl
  cases h.symm.trans ht
  exact hu

/-! ### The last-instruction register (R39) -/

/-- `t` is `s` but for `last`. -/
def EqualButLast (s t : State) : Prop := ∃ l, t = s.setLast l

/-- Cores that are equal but for `last` are congruent; where `last` is written, both get the same. -/
theorem congruence_equalButLast : Congruence (fun _ => True) EqualButLast where
  config := by rintro _ _ ⟨l, rfl⟩; rfl
  pc := by rintro _ _ ⟨l, rfl⟩; rfl
  sp := by rintro _ _ ⟨l, rfl⟩; rfl
  mem := by rintro _ _ ⟨l, rfl⟩; rfl
  runState := by rintro _ _ ⟨l, rfl⟩; rfl
  getReg := by rintro _ _ _ ⟨l, rfl⟩ _; rfl
  setReg _ := by rintro ⟨l, rfl⟩ _; exact ⟨l, rfl⟩
  setPc _ := by rintro ⟨l, rfl⟩; exact ⟨l, rfl⟩
  setSp _ := by rintro ⟨l, rfl⟩; exact ⟨l, rfl⟩
  setMem _ := by rintro ⟨l, rfl⟩; exact ⟨l, rfl⟩
  setRunState _ := by rintro ⟨l, rfl⟩; exact ⟨l, rfl⟩
  setLast i := by rintro ⟨l, rfl⟩; exact ⟨i, rfl⟩
  withZero _ := by rintro ⟨l, rfl⟩; exact ⟨l, rfl⟩
  withLogic _ := by rintro ⟨l, rfl⟩; exact ⟨l, rfl⟩
  withArith _ _ := by rintro ⟨l, rfl⟩; exact ⟨l, rfl⟩

/-- A cycle that does not fault leaves the decoded instruction in `last`. -/
theorem step_last {s t : State} {i : Instr} {n : Nat} (hr : s.runState = .running)
    (hd : decode s.fetchBytes = .ok i n) (h : step s = .next t) (hf : ∀ k, t.runState ≠ .faulted k) :
    t.last = some i := by
  obtain ⟨u, hu, rfl⟩ := step_eq_retire hr hd h
  rw [State.retire_runState] at hf
  have hran := ((stepRunsDecodedInstruction s hr).2 i n u hd hu).2 hf
  rw [Host.Outcome.next.inj (h.symm.trans hran)]

/-- Settles O52: the two steps end in cores that are equal but for `last`, and each of them has set it to what it
has decoded, which is the same. -/
theorem lastIsForInspectionOnly : Obligations.LastIsForInspectionOnly := by
  unfold Obligations.LastIsForInspectionOnly
  intro s l
  have hstart : EqualButLast s (s.setLast l) := ⟨l, rfl⟩
  obtain ⟨t, u, ht, hu, l', rfl⟩ := congruence_equalButLast.step (fun _ _ => trivial) hstart rfl rfl
  refine ⟨t, _, ht, hu, rfl, fun i n hr hd hf => ⟨step_last hr hd ht hf, ?_⟩⟩
  have hd' : decode (s.setLast l).fetchBytes = .ok i n := by rwa [congruence_equalButLast.fetchBytes hstart]
  exact step_last (s := s.setLast l) hr hd' hu hf

/-! ### The stack pointer (R28) -/

/-- PUSH, POP, CALL and RET. -/
def UsesStack (i : Instr) : Prop := ∃ o, i = .push o ∨ i = .pop o ∨ i = .call o ∨ i = .ret o

/-- Only these write `sp`. -/
theorem Effect.sp_cases {i : Instr} {s t : State} (h : Effect i s t) : t.sp = s.sp ∨ UsesStack i := by
  cases h with
  | pushed o d hi => exact .inr ⟨o, .inl hi⟩
  | popped o r hi => exact .inr ⟨o, .inr (.inl hi)⟩
  | called o lo hb p hi => exact .inr ⟨o, .inr (.inr (.inl hi))⟩
  | returned o p hi => exact .inr ⟨o, .inr (.inr (.inr hi))⟩
  | unchanged | faulted | loaded | stored | swapped | addType | subType | logic | jumped | halted => exact .inl rfl

/-- `t` is `s` with `v` in `sp`. -/
def EqualButSp (v : Word) (s t : State) : Prop := t = s.setSp v

section
variable (o : Operands) (s : State) (v : Word)

/-- STORE's bounds check and its write are at `x[reg1]`. -/
theorem execStore_equalButSp : NextRelated (EqualButSp v) (execStore o s) (execStore o (s.setSp v)) := by
  refine .withData rfl fun d => ?_
  rw [State.setSp_getReg, State.memWrite, State.memWrite, State.setSp_inMemory]
  split
  · exact .next rfl
  · exact .next rfl

theorem execDiv_equalButSp : NextRelated (EqualButSp v) (execDiv o s) (execDiv o (s.setSp v)) := by
  refine .withData rfl fun d => ?_
  split
  · exact .next rfl
  · exact .next rfl

end

/-- An instruction that is none of the four ends in cores equal but for `sp` when it begins in such. -/
theorem exec_equalButSp {i : Instr} (hi : ¬ UsesStack i) (s : State) (v : Word) :
    NextRelated (EqualButSp v) (exec i s) (exec i (s.setSp v)) := by
  cases i with
  | push o => exact absurd ⟨o, .inl rfl⟩ hi
  | pop o => exact absurd ⟨o, .inr (.inl rfl)⟩ hi
  | call o => exact absurd ⟨o, .inr (.inr (.inl rfl))⟩ hi
  | ret o => exact absurd ⟨o, .inr (.inr (.inr rfl))⟩ hi
  | store o => exact execStore_equalButSp o s v
  | div o => exact execDiv_equalButSp o s v
  | load | mov | add | sub | mul | and | or | xor | shl | shr | jmp => exact .withData rfl fun d => .next rfl
  | jz | jnz | jc => exact .withData rfl fun d => .next (related_ite _ rfl rfl)
  | swap | inc | dec | not | nop | halt => exact .next rfl

/-- Settles O57: only the four stack shapes of `Effect` write `sp`, and every other instruction does the same in two
cores that are equal but for `sp`. -/
theorem onlyStackInstructionsUseSp : Obligations.OnlyStackInstructionsUseSp := by
  unfold Obligations.OnlyStackInstructionsUseSp
  intro i s t v hi h
  have hstack : ¬ UsesStack i := by
    rintro ⟨o, ho⟩
    have := hi o
    tauto
  refine ⟨(exec_effect h).sp_cases.resolve_right hstack, ?_⟩
  obtain ⟨t', u, ht, hu, rfl⟩ := exec_equalButSp hstack s v
  cases h.symm.trans ht
  exact hu

end Sys2Proof.Machine
end
